-- ==== Sys2Proof/Word.lean ====
section
/-! DEFINITION. The sizes of 00_scope.md R5 that types are built from, and the word type of crazy-synth CORE: every
real-valued quantity is one binary32 pattern. -/

namespace Sys2Proof

/-- `FW`, the width of every real-valued quantity (00_scope.md R5). -/
abbrev Config.fw : Nat := 32

/-- `NPARAM`, the control values of a snapshot (R5). -/
abbrev Config.nparam : Nat := 6

/-- `CNT_W`, the width of the sample counter (R5). -/
abbrev Config.cntW : Nat := 32

/-- `SEED_W`, the width of the noise generator's state (R5). -/
abbrev Config.seedW : Nat := 32

/-- One IEEE 754 binary32 pattern (40_numerics.md R100). The arithmetic on it is Machine/Float.lean. -/
abbrev F32 := BitVec 32

/-- `F32` has the width `FW`. Its type writes the numeral, which arithmetic procedures read. -/
theorem f32_width : F32 = BitVec Config.fw := rfl

end Sys2Proof
end

