-- ==== Sys2Proof/Syntax.lean ====
section
/-! DEFINITION. What the block can be told to do: the commands of ports P and C, the unit operations of
format U, the words that carry them, and the inputs of a run. -/

namespace Sys2Proof

/-- An InstrumentParams snapshot: six control values, any binary32 patterns (10_state.md R24, 30_encoding.md R89). -/
structure Snapshot where
  a : F32
  b : F32
  c : F32
  d : F32
  e : F32
  f : F32
deriving DecidableEq, Repr

/-- The controls of a snapshot, `a` first. -/
def Snapshot.controls (p : Snapshot) : List F32 := [p.a, p.b, p.c, p.d, p.e, p.f]

/-- A snapshot has `NPARAM` controls, and its word `NPARAM * FW` bits (00_scope.md R5, 10_state.md R24). -/
theorem snapshot_size (p : Snapshot) : p.controls.length = Config.nparam ∧ Config.nparam * Config.fw = 192 :=
  ⟨rfl, rfl⟩

/-- One constructor per row of spec/opcode_table.json: the five commands of R86 (`NOP` has a row on each
port) and the nine unit operations of R87. A unit operation carries the operands its own rule names,
since format U gives them no bits (30_encoding.md R84, log entry 5). -/
inductive Instr where
  /-- `NOP` on port P with its ignored payload bits `PW[191:0]` (47_synthesis_engine.md R222, R89). -/
  | nopP (payload : BitVec 192)
  /-- `NOP` on port C (R222). -/
  | nopC
  /-- `PUSH` of a snapshot, port P (41_param_channel.md R133). -/
  | push (p : Snapshot)
  /-- `FRAME`, port C (47_synthesis_engine.md R224). -/
  | frame
  /-- `TICK`, port C (47_synthesis_engine.md R228). -/
  | tick
  /-- `DRAIN_LATEST` (41_param_channel.md R136). -/
  | drainLatest
  /-- `MAP` (42_param_mapper.md R163). -/
  | map
  /-- `DL_RESIZE(L)` (44_delay_line.md R184). -/
  | dlResize (len : Nat)
  /-- `NOISE_STEP` (43_noise_generator.md R171). -/
  | noiseStep
  /-- `DL_TICK(x)` (44_delay_line.md R181). -/
  | dlTick (x : F32)
  /-- `ENV_STEP` (46_envelope_gate.md R211). -/
  | envStep
  /-- `OSC_STEP` (45_oscillator_fm.md R196). -/
  | oscStep
  /-- `CNT_GATE` (45_oscillator_fm.md R200). -/
  | cntGate
  /-- `MIX_OUT(mixed, eg, osc, cg)` (47_synthesis_engine.md R232). -/
  | mixOut (mixed : F32) (eg : Bool) (osc : F32) (cg : Bool)
deriving DecidableEq, Repr

/-- A word as it is presented: on port P (format `PW`, R82), on port C (format `CW`, R83), or an event record
of a unit operation (format `U`, R84: a 4-bit code; the 66 operand bits beside it are the model's, log entry 5). -/
inductive CmdWord where
  | portP (w : BitVec 196)
  | portC (w : BitVec 4)
  | unit (code : BitVec 4) (operands : BitVec 66)
deriving DecidableEq, Repr

/-- One event of a run, in the total order of 20_memory.md R69: a word, or agent `H` asserting and releasing
`RST` with its three inputs (70_reset_and_hazards.md R280, R281, R283). -/
inductive Input where
  | cmd (w : CmdWord)
  | reset (cfgIn : BitVec 8) (init : BitVec 192) (seedIn : BitVec 32)
deriving DecidableEq, Repr

end Sys2Proof
end

