-- ==== Sys2Proof/WellFormed.lean ====
section
/-! DEFINITION. Which instructions an encoding can carry. -/

namespace Sys2Proof

/-- Every operand fits the field that carries it. Only `DL_RESIZE`'s length, an integer `L >= 0` of R184, has more
values than its field: the record holds 32 bits of it (log entry 5). -/
def Instr.wf : Instr → Bool
  | .nopP _ => true
  | .nopC => true
  | .push _ => true
  | .frame => true
  | .tick => true
  | .drainLatest => true
  | .map => true
  | .dlResize len => decide (len < 2 ^ 32)
  | .noiseStep => true
  | .dlTick _ => true
  | .envStep => true
  | .oscStep => true
  | .cntGate => true
  | .mixOut _ _ _ _ => true

/-- The well-formed instructions. -/
abbrev Instr.WellFormed (i : Instr) : Prop := i.wf = true

end Sys2Proof
end

