-- ==== Sys2Proof/Decode.lean ====
section
/-! DEFINITION. The decoder of the two ports and of the unit-operation records, total on every word and rejecting by
name, then the encoder written from the same tables (30_encoding.md R82 to R94). -/

namespace Sys2Proof

/-! ## The snapshot word -/

/-- The six fields of a 192-bit snapshot word (10_state.md R24). -/
def Snapshot.ofWord (w : BitVec 192) : Snapshot where
  a := w.extractLsb' 0 32
  b := w.extractLsb' 32 32
  c := w.extractLsb' 64 32
  d := w.extractLsb' 96 32
  e := w.extractLsb' 128 32
  f := w.extractLsb' 160 32

/-- The 192-bit word of a snapshot: `f` in the most significant position, `a` in the least (R24). -/
def Snapshot.toWord (p : Snapshot) : BitVec 192 :=
  p.f ++ p.e ++ p.d ++ p.c ++ p.b ++ p.a

/-! ## Decoding -/

/-- Why a word is no instruction. -/
inductive Reject where
  /-- Port P does not accept this `op` (R88): every code but `0x0` and `0x1`. -/
  | illegalP (op : BitVec 4)
  /-- Port C does not accept this `op` (R88): every code but `0x0`, `0x2`, `0x3`. -/
  | illegalC (op : BitVec 4)
  /-- No unit operation has this code (R87): `0x9` to `0xF`. -/
  | unusedUnitCode (code : BitVec 4)
  /-- A unit-operation record has a bit set outside its operation's operands (log entry 5). -/
  | strayOperandBits (code : BitVec 4)
deriving DecidableEq, Repr

/-- The `op` field of format `PW` (R82). -/
def opP (w : BitVec 196) : BitVec 4 := w.extractLsb' 192 4

/-- The payload bits of format `PW` (R82). -/
def payloadP (w : BitVec 196) : BitVec 192 := w.extractLsb' 0 192

/-- Port P accepts `0x0` and `0x1` (R86). -/
def decodeP (w : BitVec 196) : Except Reject Instr :=
  if opP w = 0x0#4 then .ok (.nopP (payloadP w))
  else if opP w = 0x1#4 then .ok (.push (Snapshot.ofWord (payloadP w)))
  else .error (.illegalP (opP w))

/-- Port C accepts `0x0`, `0x2` and `0x3` (R86). -/
def decodeC (w : BitVec 4) : Except Reject Instr :=
  if w = 0x0#4 then .ok .nopC
  else if w = 0x2#4 then .ok .frame
  else if w = 0x3#4 then .ok .tick
  else .error (.illegalC w)

/-- A unit operation all of whose operands lie in the low `n` record bits. -/
def withOperands (n : Nat) (code : BitVec 4) (operands : BitVec 66) (i : Instr) : Except Reject Instr :=
  if operands.toNat < 2 ^ n then .ok i else .error (.strayOperandBits code)

/-- The unit operations of R87, by code. -/
def decodeU (code : BitVec 4) (operands : BitVec 66) : Except Reject Instr :=
  if code = 0x0#4 then withOperands 0 code operands .drainLatest
  else if code = 0x1#4 then withOperands 0 code operands .map
  else if code = 0x2#4 then withOperands 32 code operands (.dlResize operands.toNat)
  else if code = 0x3#4 then withOperands 0 code operands .noiseStep
  else if code = 0x4#4 then withOperands 32 code operands (.dlTick (operands.extractLsb' 0 32))
  else if code = 0x5#4 then withOperands 0 code operands .envStep
  else if code = 0x6#4 then withOperands 0 code operands .oscStep
  else if code = 0x7#4 then withOperands 0 code operands .cntGate
  else if code = 0x8#4 then
    .ok (.mixOut (operands.extractLsb' 0 32) (operands.getLsbD 64) (operands.extractLsb' 32 32) (operands.getLsbD 65))
  else .error (.unusedUnitCode code)

/-- The instruction of a word, or why there is none. Each port has one word length, so no length rule is
needed (R91), and the configuration never changes decoding (R91). -/
def decode : CmdWord → Except Reject Instr
  | .portP w => decodeP w
  | .portC w => decodeC w
  | .unit code operands => decodeU code operands

/-! ## Encoding -/

/-- The port-P word `op, payload` (R82). -/
def wordP (op : BitVec 4) (payload : BitVec 192) : CmdWord := .portP (op ++ payload)

/-- The record of a unit operation whose only operand is 32 bits wide. -/
def unitWord (code : BitVec 4) (x : BitVec 32) : CmdWord := .unit code (0#34 ++ x)

/-- The word of an instruction, from the tables of R82, R83, R86 and R87. -/
def encode : Instr → CmdWord
  | .nopP payload => wordP 0x0#4 payload
  | .nopC => .portC 0x0#4
  | .push p => wordP 0x1#4 p.toWord
  | .frame => .portC 0x2#4
  | .tick => .portC 0x3#4
  | .drainLatest => unitWord 0x0#4 0#32
  | .map => unitWord 0x1#4 0#32
  | .dlResize len => unitWord 0x2#4 (BitVec.ofNat 32 len)
  | .noiseStep => unitWord 0x3#4 0#32
  | .dlTick x => unitWord 0x4#4 x
  | .envStep => unitWord 0x5#4 0#32
  | .oscStep => unitWord 0x6#4 0#32
  | .cntGate => unitWord 0x7#4 0#32
  | .mixOut mixed eg osc cg => .unit 0x8#4 (BitVec.ofBool cg ++ BitVec.ofBool eg ++ osc ++ mixed)

/-! ## Trace forms -/

/-- The pseudo-command `FILL n`: a `FRAME`, then `n` times `TICK`, not atomic (R93, 47_synthesis_engine.md R235). -/
def fillWords (n : Nat) : List CmdWord := encode .frame :: List.replicate n (encode .tick)

/-- `CFG_IN` of a `.cfg` trace line: `0b000, delay, fmdepth, fmrate, mode` (R92, 10_state.md R26). -/
def cfgWord (mode : BitVec 2) (fmRateLin fmDepthExp delayLin : Bool) : BitVec 8 :=
  0#3 ++ BitVec.ofBool delayLin ++ BitVec.ofBool fmDepthExp ++ BitVec.ofBool fmRateLin ++ mode

/-! ## Words as spec/opcode_table.json numbers them -/

/-- The presented word of an opcode-table row's bits `w`. A row of 196 bits is a port-P word. The rows of 4 bits are of
two code spaces that overlap (formats `CW` and `U`), and nothing in the bits tells them apart: a code that port C
accepts is read as port C's word, another code as a unit operation's, with operand bits of zero (log entry 6). -/
def tableWord (nbits w : Nat) : Option CmdWord :=
  if nbits = 196 ∨ nbits = 200 then
    if w < 2 ^ 196 then some (.portP (BitVec.ofNat 196 w)) else none
  else if nbits = 4 ∨ nbits = 8 then
    if w = 0 ∨ w = 2 ∨ w = 3 then some (.portC (BitVec.ofNat 4 w))
    else if w < 16 then some (.unit (BitVec.ofNat 4 w) 0#66)
    else none
  else none

/-- What the decoder reads from an opcode-table row's bits. -/
def decodeTableWord (nbits w : Nat) : Option Instr :=
  (tableWord nbits w).bind fun cw => (decode cw).toOption

end Sys2Proof
end

