-- ==== Sys2Proof/Machine/Float.lean ====
section
/-! DEFINITION. The number system of 40_numerics.md: IEEE 754 binary32, round to nearest even, subnormals kept, no flags.
A finite value is read as an exact integer in units of `2^-149`, the operation is done exactly, and the result is
rounded once (R101, R102). Every operation that can answer a NaN takes, as its first argument, the pattern drawn for
that occurrence (R103, log entry 2). -/

namespace Sys2Proof.Machine

/-! ## Format (R100) -/

/-- The sign bit. -/
def sgn (x : F32) : Bool := x.getLsbD 31

/-- The biased exponent `E`. -/
def expo (x : F32) : Nat := (x.extractLsb' 23 8).toNat

/-- The fraction `F`. -/
def frac (x : F32) : Nat := (x.extractLsb' 0 23).toNat

/-- `E = 255, F != 0`. -/
def isNaN (x : F32) : Bool := expo x == 255 && frac x != 0

/-- `E = 255, F = 0`. -/
def isInf (x : F32) : Bool := expo x == 255 && frac x == 0

/-- `E < 255`. -/
def isFinite (x : F32) : Bool := expo x != 255

/-- `E = 0, F = 0`. -/
def isZero (x : F32) : Bool := expo x == 0 && frac x == 0

/-- The magnitude in units of `2^-149` (R100). An infinity is read as the value `2^128`, above every finite one. -/
def mag (x : F32) : Nat := if expo x = 0 then frac x else (2 ^ 23 + frac x) * 2 ^ (expo x - 1)

/-- The signed value in units of `2^-149`; both zeros read 0. Of no meaning for a NaN. -/
def scaled (x : F32) : Int := if sgn x then -(mag x : Int) else (mag x : Int)

/-- The pattern with the given sign and the given low 31 bits. -/
def pack (neg : Bool) (m : Nat) : F32 := BitVec.ofNat 32 (m + if neg then 2 ^ 31 else 0)

/-- The low 31 bits of an infinity. -/
def infBits : Nat := 0x7F800000

/-! ## Rounding (R101) -/

/-- `n / d` rounded to the nearest integer, a tie to the even one (`d >= 1`). -/
def nearestEven (n d : Nat) : Nat :=
  if 2 * (n % d) < d then n / d
  else if d < 2 * (n % d) then n / d + 1
  else n / d + (n / d) % 2

/-- The low 31 bits of the binary32 nearest the magnitude `n / d` in units of `2^-149`. With `k` the power of two
that brings the quotient below `2^24`, a significand of `m` units of `2^k` has the pattern `k * 2^23 + m`, a carry
out of the significand included; past the largest finite magnitude the result is an infinity (R102). -/
def roundMag (n d : Nat) : Nat :=
  let k := Nat.log2 (n / d) - 23
  min (nearestEven n (d * 2 ^ k) + k * 2 ^ 23) infBits

/-! ## Arithmetic (R102) -/

/-- `fadd(x, y)`. -/
def fadd (nan x y : F32) : F32 :=
  if isNaN x || isNaN y then nan
  else if isInf x then (if isInf y && (sgn x != sgn y) then nan else x)
  else if isInf y then y
  else if scaled x + scaled y = 0 then pack (sgn x && sgn y) 0
  else pack (decide (scaled x + scaled y < 0)) (roundMag (scaled x + scaled y).natAbs 1)

/-- The operand with its sign bit inverted. -/
def fneg (x : F32) : F32 := x ^^^ 0x80000000#32

/-- `fsub(x, y)`. -/
def fsub (nan x y : F32) : F32 := fadd nan x (fneg y)

/-- `fmul(x, y)`. -/
def fmul (nan x y : F32) : F32 :=
  if isNaN x || isNaN y then nan
  else if isInf x || isInf y then
    (if isZero x || isZero y then nan else pack (sgn x != sgn y) infBits)
  else pack (sgn x != sgn y) (roundMag (mag x * mag y) (2 ^ 149))

/-- `fdiv(x, y)`. -/
def fdiv (nan x y : F32) : F32 :=
  if isNaN x || isNaN y then nan
  else if isInf x then (if isInf y then nan else pack (sgn x != sgn y) infBits)
  else if isInf y then pack (sgn x != sgn y) 0
  else if isZero y then (if isZero x then nan else pack (sgn x != sgn y) infBits)
  else pack (sgn x != sgn y) (roundMag (mag x * 2 ^ 149) (mag y))

/-! ## Comparison (R104) -/

/-- `fle(x, y)`: false on a NaN, the zeros equal. -/
def fle (x y : F32) : Bool := !isNaN x && !isNaN y && decide (scaled x ≤ scaled y)

/-- `flt(x, y)`. -/
def flt (x y : F32) : Bool := !isNaN x && !isNaN y && decide (scaled x < scaled y)

/-- `fge(x, y)`. -/
def fge (x y : F32) : Bool := fle y x

/-! ## Conversion (R107 to R109) -/

/-- `i2f(n)`: the nearest binary32 of a non-negative integer, a tie to even (R107). -/
def i2f (n : Nat) : F32 := pack false (roundMag (n * 2 ^ 149) 1)

/-- `fround(x)`: the nearest integer, halves away from zero; an infinity or a NaN is the operand (R108). The sign of
the operand is kept on a zero result (DEDUCED from the listing of 95_test_vectors.md part 4, log entry 9). -/
def fround (x : F32) : F32 :=
  if isFinite x then pack (sgn x) (roundMag ((mag x + 2 ^ 148) / 2 ^ 149 * 2 ^ 149) 1) else x

/-- `f2i_sat(x, HI)` of an integer-valued `x`: 0 for a NaN or `x <= 0`, `HI` for `x >= HI` and
`+inf`, else the integer (R109). -/
def f2iSat (x : F32) (hi : Nat) : Nat :=
  if isNaN x || decide (scaled x ≤ 0) then 0
  else if isInf x || decide (hi * 2 ^ 149 ≤ mag x) then hi
  else mag x / 2 ^ 149

/-! ## Constants (R106) -/

/-- `TWO_PI`. -/
def twoPi : F32 := 0x40C90FDB#32
/-- `K = fdiv(TWO_PI, SR)`, with `SR` the one of Config.lean. -/
def phaseK : F32 := 0x39156593#32
/-- `C0_1`, the literal 0.1. -/
def c0_1 : F32 := 0x3DCCCCCD#32
/-- 0.5 -/
def fHalf : F32 := 0x3F000000#32
/-- 1.0 -/
def fOne : F32 := 0x3F800000#32
/-- 2.0 -/
def fTwo : F32 := 0x40000000#32
/-- 4.0 -/
def fFour : F32 := 0x40800000#32
/-- 5.0 -/
def fFive : F32 := 0x40A00000#32
/-- 8.0 -/
def fEight : F32 := 0x41000000#32
/-- 9.0 -/
def fNine : F32 := 0x41100000#32
/-- `+0.0` -/
def fZero : F32 := 0x00000000#32

/-! ## The points where `fexp2` is fixed (R112 E1, E3) -/

/-- The value `fexp2` takes at a non-NaN operand where (E1) or (E3) fixes it, and `none` elsewhere. -/
def exp2Fixed (x : F32) : Option F32 :=
  if 128 * 2 ^ 149 ≤ scaled x then some (pack false infBits)
  else if isInf x then some fZero
  else if scaled x % 2 ^ 149 = 0 ∧ -126 ≤ scaled x / 2 ^ 149 then
    some (pack false ((scaled x / 2 ^ 149 + 127).toNat * 2 ^ 23))
  else none

/-- `fexp2` with the free part `f` at the operands that (E1) and (E3) leave open. -/
def exp2With (f : F32 → F32) (x : F32) : F32 :=
  if isNaN x then f x
  else match exp2Fixed x with
    | some v => v
    | none => f x

end Sys2Proof.Machine
end

