-- ==== Sys2Proof/Machine/Prng.lean ====
section
/-! DEFINITION. The noise generator's two functions as 43_noise_generator.md decides them. Config.lean names the pair as
the block's configuration, and nothing else depends on which pair it is (R170). -/

namespace Sys2Proof.Machine

/-- `PRNG_STEP`: xorshift32 with the shifts 13, 17, 5 (R171). -/
def prngStep (seed : BitVec 32) : BitVec 32 :=
  let x := seed ^^^ (seed <<< 13)
  let y := x ^^^ (x >>> 17)
  y ^^^ (y <<< 5)

/-- The integer `n = sext_24(x[31:8])` (R172). -/
def noiseInt (x : BitVec 32) : Int := (x.extractLsb' 8 24).toInt

/-- `PRNG_OUT(x)`: `n / 2^23`, exact in binary32 (R172). -/
def prngOut (x : BitVec 32) : F32 :=
  pack (decide (noiseInt x < 0)) (roundMag ((noiseInt x).natAbs * 2 ^ 126) 1)

end Sys2Proof.Machine
end

