-- ==== Sys2Proof/Config.lean ====
section
/-! DEFINITION. What an implementation fixes, and the values the spec leaves free (00_scope.md R5, 40_numerics.md R103 and
R110). A free value is an opaque constant: nothing in Lean can say what it is beyond the properties the spec names. -/

namespace Sys2Proof.Config

open Sys2Proof.Machine

/-! ## Fixed parameters (R5). `FW`, `NPARAM`, `CNT_W` and `SEED_W` stand in Word.lean. -/

/-- `SR`, the sample rate 44100. -/
def sr : F32 := 0x472C4400#32

/-- `CAP`, entries of the parameter ring. -/
def cap : Nat := 200

/-- `DELAY_MAX`, samples of the delay RAM. -/
def delayMax : Nat := 44100

/-- `SEED_ZERO_SUB`, the seed used when the seed input is zero (43_noise_generator.md R173). -/
def seedZeroSub : BitVec seedW := 0x9E3779B9#32

/-- The pair a block takes as its noise generator (R5, 43_noise_generator.md R171). -/
structure Generator where
  /-- `PRNG_STEP`. -/
  step : BitVec seedW → BitVec seedW
  /-- `PRNG_OUT`. -/
  out : BitVec seedW → F32

/-- `PRNG_STEP` and `PRNG_OUT` of this hardware. -/
def generator : Generator := { step := prngStep, out := prngOut }

@[simp] theorem generator_step (x : BitVec seedW) : generator.step x = prngStep x := rfl
@[simp] theorem generator_out (x : BitVec seedW) : generator.out x = prngOut x := rfl

/-! ## NaN results (R103, 93_implementation_defined.md U2) -/

/-- The six controls, to name the site of a remap. -/
inductive Ctl where
  | a | b | c | d | e | f
deriving DecidableEq, Repr

/-- The places of the rules' pseudocode where an arithmetic operation may answer a NaN. -/
inductive Site where
  /-- The division of `REMAP` (R151). -/
  | remapDiv (control : Ctl)
  /-- The addition of `REMAP` (R151). -/
  | remapAdd (control : Ctl)
  /-- `fmul(a_n, 2.0)` (R163). -/
  | periodMul
  /-- `fadd(.., C0_1)` (R163). -/
  | periodAdd
  /-- `fmul(e_n, 9.0)` (R163). -/
  | cfMul
  /-- `fadd(5.0, ..)` of `CF` (R163). -/
  | cfAdd
  /-- `fmul(c_n, 8.0)` or `fmul(2.0, c_n)` (R163). -/
  | fmRateMul
  /-- `fmul(d_n, 2.0)` or `fmul(d_n, 9.0)` (R163). -/
  | fmDepthMul
  /-- `fadd(5.0, ..)` of `FMDEPTH` (R163). -/
  | fmDepthAdd
  /-- `fmul(e_n, 4.0)` or `fmul(e_n, SR)` (R163). -/
  | rawMul
  /-- `fmul(PERIOD, SR)` (R163). -/
  | psampMul
  /-- `fmul(nz, DEPTH)` (R228). -/
  | noiseMul
  /-- `fmul(FBG, old)` (R228). -/
  | feedbackMul
  /-- The summer of step 2 (R228). -/
  | mixAdd
  /-- `fdiv(K, PERIOD)` (R211). -/
  | envInc
  /-- `fadd(ENVPH, inc)` (R211). -/
  | envAdd
  /-- The subtraction of `WRAP` on `ENVPH` (R195). -/
  | envWrap
  /-- `fmul(TWO_PI, DUTY)` (R211). -/
  | envThr
  /-- `fmul(K, FMRATE)` (R196). -/
  | fmInc
  /-- `fadd(FMPH, ..)` (R196). -/
  | fmAdd
  /-- The subtraction of `WRAP` on `FMPH` (R195). -/
  | fmWrap
  /-- `fmul(m, FMDEPTH)` (R196). -/
  | modMul
  /-- `fmul(.., CF)` (R196). -/
  | modCf
  /-- `fadd(CF, ..)` (R196). -/
  | fiAdd
  /-- `fmul(K, fi)` (R196). -/
  | carInc
  /-- `fadd(OSCPH, ..)` (R196). -/
  | carAdd
  /-- The subtraction of `WRAP` on `OSCPH` (R195). -/
  | carWrap
  /-- `fmul(DUTY, i2f(PSAMP))` (R200). -/
  | cntThr
  /-- The summer of `MIX` mode (R232). -/
  | sumAdd
  /-- `fmul(pre, OG)` (R232). -/
  | gainMul
deriving DecidableEq, Repr

/-- The free draws behind `nanAt`. -/
opaque nanDraw : Nat → Site → F32

/-- The NaN pattern an operation answers, when it answers a NaN, at draw number `n` and this site: any NaN pattern (R103,
U2: per occurrence; log entry 2). A draw that is no NaN pattern counts as the pattern `0x7FC00000`, so that the
values of `nanAt` are exactly the NaN patterns. -/
def nanAt (n : Nat) (site : Site) : F32 :=
  if isNaN (nanDraw n site) then nanDraw n site else 0x7FC00000#32

/-! ## `fsin` (R111) -/

/-- A function with the properties (S1) to (S4) of `fsin`; (S5) has an open bound and is `Safety.SinWithin`. -/
structure SinFn where
  /-- The function. -/
  f : F32 → F32 := fun x => if isFinite x then fZero else 0x7FC00000#32
  /-- (S1), (S2): on a finite operand the result is finite and at most 1.0 in magnitude. -/
  bounded : ∀ x, isFinite x = true → mag (f x) ≤ mag fOne := by
    intro x hx; simp only [hx, if_true]; decide
  /-- (S3). -/
  zero : f fZero = fZero := by decide
  /-- (S4). -/
  nonfinite : ∀ x, isFinite x = false → isNaN (f x) = true := by
    intro x hx; simp only [hx]; decide
deriving Inhabited

/-- The realisation's `fsin`: any function with those properties (R110, log entry 3). -/
opaque sinFn : SinFn

/-! ## `fexp2` (R112) -/

/-- The staircase step of `x`: `floor(x) + 127` kept in `[0, 255]`, the biased exponent of `2^floor(x)`. -/
def stairStep (x : F32) : Nat := (min (max (scaled x / 2 ^ 149 + 127) 0) 255).toNat

/-- The staircase `2^floor(x)`, which shows that a function with the properties of `Exp2Fn` exists. -/
def stair (x : F32) : F32 :=
  if isNaN x then 0x7FC00000#32 else pack false (stairStep x * 2 ^ 23)

theorem stairStep_le (x : F32) : stairStep x ≤ 255 := by
  unfold stairStep; omega

theorem stairStep_mono {x y : F32} (h : scaled x ≤ scaled y) : stairStep x ≤ stairStep y := by
  have := Int.ediv_le_ediv (show (0 : Int) < 2 ^ 149 by decide) h
  unfold stairStep; omega

/-- The biased exponent alone orders the powers of two, `+0.0` below and the infinity above them. -/
theorem scaled_pow2_mono : ∀ c : Fin 256, scaled (pack false (c * 2 ^ 23)) =
    if c.val = 0 then 0 else 2 ^ (c.val + 22) := by decide +kernel

theorem scaled_stair_mono {c d : Nat} (hd : d ≤ 255) (h : c ≤ d) :
    scaled (pack false (c * 2 ^ 23)) ≤ scaled (pack false (d * 2 ^ 23)) := by
  have hc := scaled_pow2_mono ⟨c, by omega⟩
  have hd := scaled_pow2_mono ⟨d, by omega⟩
  simp only at hc hd
  rw [hc, hd]
  split <;> split
  · exact le_refl _
  · positivity
  · omega
  · exact_mod_cast Nat.pow_le_pow_right (by decide) (by omega)

/-- The negative infinity is the only infinity below 128. -/
theorem scaled_of_isInf {x : F32} (h : isInf x = true) (hlt : scaled x < 128 * 2 ^ 149) :
    scaled x = -(2 ^ 128 * 2 ^ 149) := by
  simp only [isInf, Bool.and_eq_true, beq_iff_eq] at h
  revert hlt
  simp only [scaled, mag, h.1, h.2]
  split <;> intro hlt <;> revert hlt <;> norm_num

/-- With the staircase as its free part the whole of `fexp2` is the staircase. -/
theorem exp2With_stair {x : F32} (hx : isNaN x = false) :
    exp2With stair x = pack false (stairStep x * 2 ^ 23) := by
  have hs : stair x = pack false (stairStep x * 2 ^ 23) := by simp [stair, hx]
  simp only [exp2With, hx, Bool.false_eq_true, if_false, exp2Fixed]
  by_cases h1 : 128 * 2 ^ 149 ≤ scaled x
  · have : 128 ≤ scaled x / 2 ^ 149 := (Int.le_ediv_iff_mul_le (by decide)).2 h1
    have : stairStep x = 255 := by unfold stairStep; omega
    simp only [h1, if_true, this]; decide
  · by_cases h2 : isInf x = true
    · have hv := scaled_of_isInf h2 (by omega)
      have : stairStep x = 0 := by unfold stairStep; rw [hv]; decide
      simp only [h1, h2, if_true, if_false, this]; decide
    · have hlt : scaled x / 2 ^ 149 < 128 := (Int.ediv_lt_iff_lt_mul (by decide)).2 (by omega)
      by_cases h3 : scaled x % 2 ^ 149 = 0 ∧ -126 ≤ scaled x / 2 ^ 149
      · have : (scaled x / 2 ^ 149 + 127).toNat = stairStep x := by
          have := h3.2; unfold stairStep; omega
        simp only [h1, h2, h3, if_true, if_false, this, and_self, Bool.false_eq_true]
      · simp only [h1, h2, h3, if_false, hs, Bool.false_eq_true]

/-- Where `exp2Fixed` answers nothing the staircase is below its last step. -/
theorem stair_finite {x : F32} (hx : isNaN x = false) (h : exp2Fixed x = none) :
    isFinite (stair x) = true ∧ 0 ≤ scaled (stair x) := by
  have h1 : ¬ 128 * 2 ^ 149 ≤ scaled x := by
    intro h1; simp only [exp2Fixed, if_pos h1, reduceCtorEq] at h
  have hlt : scaled x / 2 ^ 149 < 128 := (Int.ediv_lt_iff_lt_mul (by decide)).2 (by omega)
  have hstep : stairStep x < 255 := by unfold stairStep; omega
  have key : ∀ c : Fin 255, isFinite (pack false (c * 2 ^ 23)) = true ∧ 0 ≤ scaled (pack false (c * 2 ^ 23)) := by
    decide +kernel
  simpa [stair, hx] using key ⟨stairStep x, hstep⟩

/-- A function with the properties (E1) to (E3) of `fexp2`, given by its values where (E1) and (E3) leave it open. (E3)'s
"finite and non-negative" is read of the value, so that a zero result there may have either sign (log entry 3). (E4) has an
open bound and is `Safety.Exp2Within`. -/
structure Exp2Fn where
  /-- The function, used only where `exp2Fixed` answers nothing. -/
  f : F32 → F32 := stair
  /-- (E2): the whole function is monotone on the non-NaN operands. -/
  mono : ∀ x y, isNaN x = false → isNaN y = false → scaled x ≤ scaled y →
      scaled (exp2With f x) ≤ scaled (exp2With f y) := by
    intro x y hx hy h
    rw [exp2With_stair hx, exp2With_stair hy]
    exact scaled_stair_mono (stairStep_le y) (stairStep_mono h)
  /-- (E3): finite and non-negative at every other operand. -/
  finite : ∀ x, isNaN x = false → exp2Fixed x = none → isFinite (f x) = true ∧ 0 ≤ scaled (f x) := by
    intro x hx h; exact stair_finite hx h
  /-- (E3): a NaN at a NaN. -/
  nonfinite : ∀ x, isNaN x = true → isNaN (f x) = true := by
    intro x hx; simp only [stair, hx, if_true]; decide
deriving Inhabited

/-- The realisation's `fexp2` off its fixed points: any function with those properties (R110, log entry 3). -/
opaque exp2Fn : Exp2Fn

end Sys2Proof.Config
end

