-- ==== Sys2Proof/Machine/Operands.lean ====
section
/-! DEFINITION. The forms in which the operations take their inputs: the fields of the configuration word, and the
normalised controls. -/

namespace Sys2Proof.Machine

/-! ## The configuration word (10_state.md R26) -/

/-- The signal paths of `CFG.MODE`. -/
inductive Mode where
  | noise | osc | mix
deriving DecidableEq, Repr

/-- `CFG.MODE`, bits `[1:0]`; the code `0b11` is reserved and names no path. -/
def cfgMode (cfg : BitVec 8) : Option Mode :=
  if cfg.extractLsb' 0 2 = 0b00#2 then some .noise
  else if cfg.extractLsb' 0 2 = 0b01#2 then some .osc
  else if cfg.extractLsb' 0 2 = 0b10#2 then some .mix
  else none

/-- `CFG.FMRATE_MAP`, bit 2: true for `LIN`. -/
def cfgFmRateLin (cfg : BitVec 8) : Bool := cfg.getLsbD 2

/-- `CFG.FMDEPTH_MAP`, bit 3: true for `EXP`. -/
def cfgFmDepthExp (cfg : BitVec 8) : Bool := cfg.getLsbD 3

/-- `CFG.DELAY_MAP`, bit 4: true for `LIN`. -/
def cfgDelayLin (cfg : BitVec 8) : Bool := cfg.getLsbD 4

/-- A configuration of this hardware: `MODE` not reserved and bits `[7:5]` zero (R26, 60_exceptions.md R258). -/
def legalCfg (cfg : BitVec 8) : Bool := (cfgMode cfg).isSome && decide (cfg.extractLsb' 5 3 = 0#3)

/-! ## The normalised controls (42_param_mapper.md R151) -/

/-- A control field by its name. -/
def control (p : Snapshot) : Config.Ctl → F32
  | .a => p.a
  | .b => p.b
  | .c => p.c
  | .d => p.d
  | .e => p.e
  | .f => p.f

/-- `REMAP(x) = fadd(fdiv(x, 2.0), 0.5)` of one control, at draw number `n`. -/
def remap (n : Nat) (ctl : Config.Ctl) (p : Snapshot) : F32 :=
  fadd (Config.nanAt n (.remapAdd ctl)) (fdiv (Config.nanAt n (.remapDiv ctl)) (control p ctl) fTwo) fHalf

end Sys2Proof.Machine
end

