-- ==== Sys2Proof/Machine/Trans.lean ====
section
/-! DEFINITION. The two transcendental functions, as the named parameters of 40_numerics.md R110 to R112. -/

namespace Sys2Proof.Machine

/-- `fsin(x)`: the realisation's function, with (S3) built in so that it can be evaluated there (R111). -/
def fsin (x : F32) : F32 := if x = fZero then fZero else Config.sinFn.f x

/-- `fexp2(x)`: fixed at the points of (E1) and (E3), the realisation's function elsewhere (R112). -/
def fexp2 (x : F32) : F32 := exp2With Config.exp2Fn.f x

end Sys2Proof.Machine
end

