-- ==== Sys2Proof/Machine/MapRegs.lean ====
section
/-! DEFINITION. The Parameter Mapper as a pure function of the active snapshot and the configuration
(42_param_mapper.md R152 to R163). -/

namespace Sys2Proof.Machine

/-- The ten derived-parameter registers (10_state.md R27, R28). -/
structure Derived where
  /-- `PERIOD`, seconds. -/
  period : F32
  /-- `DUTY`. -/
  duty : F32
  /-- `CF`, hertz. -/
  cf : F32
  /-- `FMRATE`, hertz. -/
  fmRate : F32
  /-- `FMDEPTH`. -/
  fmDepth : F32
  /-- `DEPTH`. -/
  depth : F32
  /-- `FBG`. -/
  fbg : F32
  /-- `OG`. -/
  og : F32
  /-- `DLLEN`, an integer in `[1, DELAY_MAX]`. -/
  dlLen : Nat
  /-- `PSAMP`, an integer in `[1, 2^32 - 1]`. -/
  psamp : Nat
deriving DecidableEq, Repr

/-- The `raw` delay length, before rounding (R160). -/
def rawDelay (n : Nat) (eN : F32) (cfg : BitVec 8) : F32 :=
  if cfgDelayLin cfg then fmul (Config.nanAt n .rawMul) eN Config.sr
  else fexp2 (fmul (Config.nanAt n .rawMul) eN fFour)

/-- `max(1, f2i_sat(fround(raw), DELAY_MAX))` (R160). -/
def delayLength (raw : F32) : Nat := max 1 (f2iSat (fround raw) Config.delayMax)

/-- `max(1, f2i_sat(fround(fmul(PERIOD, SR)), 2^32 - 1))` (R162). -/
def periodSamples (n : Nat) (period : F32) : Nat :=
  max 1 (f2iSat (fround (fmul (Config.nanAt n .psampMul) period Config.sr)) (2 ^ 32 - 1))

/-- `PERIOD = fadd(fmul(a_n, 2.0), C0_1)` (R152). -/
def periodOf (n : Nat) (aN : F32) : F32 :=
  fadd (Config.nanAt n .periodAdd) (fmul (Config.nanAt n .periodMul) aN fTwo) c0_1

/-- `CF = fexp2(fadd(5.0, fmul(e_n, 9.0)))` (R154). -/
def carrierFreq (n : Nat) (eN : F32) : F32 :=
  fexp2 (fadd (Config.nanAt n .cfAdd) fFive (fmul (Config.nanAt n .cfMul) eN fNine))

/-- `FMRATE`, by the two mappings of `CFG.FMRATE_MAP` (R155). -/
def fmRateOf (n : Nat) (cN : F32) (cfg : BitVec 8) : F32 :=
  if cfgFmRateLin cfg then fmul (Config.nanAt n .fmRateMul) fTwo cN
  else fexp2 (fmul (Config.nanAt n .fmRateMul) cN fEight)

/-- `FMDEPTH`, by the two mappings of `CFG.FMDEPTH_MAP` (R157). -/
def fmDepthOf (n : Nat) (dN : F32) (cfg : BitVec 8) : F32 :=
  if cfgFmDepthExp cfg then
    fexp2 (fadd (Config.nanAt n .fmDepthAdd) fFive (fmul (Config.nanAt n .fmDepthMul) dN fNine))
  else fmul (Config.nanAt n .fmDepthMul) dN fTwo

/-- `MAP` of a snapshot under a configuration, at draw number `n` (R163). -/
def mapRegs (n : Nat) (act : Snapshot) (cfg : BitVec 8) : Derived where
  period := periodOf n (remap n .a act)
  duty := remap n .b act
  cf := carrierFreq n (remap n .e act)
  fmRate := fmRateOf n (remap n .c act) cfg
  fmDepth := fmDepthOf n (remap n .d act) cfg
  depth := remap n .d act
  fbg := remap n .c act
  og := remap n .f act
  dlLen := delayLength (rawDelay n (remap n .e act) cfg)
  psamp := periodSamples n (periodOf n (remap n .a act))

end Sys2Proof.Machine
end

