-- ==== Sys2Proof/Machine/State.lean ====
section
/-! DEFINITION. The state of the block (10_state.md R20, R21) as plain data, the ways a step can stop, and the state
after reset. -/

namespace Sys2Proof.Machine

/-- The parameter ring `PQ` as its written entries: `(index, snapshot)` pairs, indexes strictly rising
(20_memory.md R60). An index that is not listed is stale and holds no value (10_state.md R31, log entry 7). -/
abbrev Memory := List (Nat × Snapshot)

/-- What the last unit operation handed to its caller (00_scope.md R7, `return v`). The model's own, log entry 5. -/
inductive UnitOut where
  /-- The operation has no result. -/
  | nothing
  /-- The optional snapshot of `DRAIN_LATEST`. -/
  | snapshot (r : Option Snapshot)
  /-- A binary32 result. -/
  | sample (x : F32)
  /-- A Boolean result. -/
  | gate (g : Bool)
deriving DecidableEq, Repr

/-- The contract faults of 60_exceptions.md R250: what cannot happen in the block and can happen only in a state that
has left the invariants. Each is safe: such a run proves nothing. -/
inductive Fault where
  /-- `E5` `DlEmpty`: `TICK` or `DL_TICK` with `len(DL) = 0` (R253). Safe. -/
  | dlEmpty
  /-- `FRAME` or `DRAIN_LATEST` would read a stale ring entry, never written or already freed (10_state.md R31). Safe. -/
  | staleEntry
  /-- `TICK` or `CNT_GATE` with `PSAMP = 0` (40_numerics.md R113). Safe. -/
  | psampZero
  /-- `TICK` or `MIX_OUT` with `CFG.MODE = 0b11` (47_synthesis_engine.md R232). Safe. -/
  | modeReserved
deriving DecidableEq, Repr

/-- What the model gives no meaning. -/
inductive Refusal where
  /-- An instruction that has no meaning yet. Raised by no arm. Safe. -/
  | notModelled (mnemonic : String)
  /-- `E3` `BadConfig`: a reset with a reserved `CFG_IN` (60_exceptions.md R258). Safe. -/
  | badConfig
  /-- A unit-operation record with a code no unit operation has (30_encoding.md R87). Safe. -/
  | unusedUnitCode
  /-- A unit-operation record with a bit outside its operation's operands (log entry 5). Safe. -/
  | strayOperandBits
deriving DecidableEq, Repr

/-- The architectural state, one field per row of R21, and below it the model's own three fields. -/
structure State where
  /-- `CFG`, the static configuration word (R26). -/
  cfg : BitVec 8
  /-- `PQ[0..CAP-1]`, the parameter ring (R29). -/
  pq : Memory
  /-- `WR`, the producer cursor, an integer in `[0, 2*CAP)` (R30). -/
  wr : Nat
  /-- `RD`, the consumer cursor, an integer in `[0, 2*CAP)` (R30). -/
  rd : Nat
  /-- `ACT.a .. ACT.f`, the active snapshot (R25). -/
  act : Snapshot
  /-- `PERIOD` to `PSAMP`, the ten derived-parameter registers (R27). -/
  derived : Derived
  /-- `SEED` (R32). -/
  seed : BitVec Config.seedW
  /-- `ENVPH` (R33). -/
  envPh : F32
  /-- `OSCPH` (R34). -/
  oscPh : F32
  /-- `FMPH` (R34). -/
  fmPh : F32
  /-- `CNT`, the sample counter (R35). -/
  cnt : BitVec Config.cntW
  /-- `DL`, the delay sequence, the oldest sample first (R36). -/
  dl : List F32
  /-- `ERR`: bit 0 `ILL_P`, bit 1 `ILL_C`, driven as `P_ERR` and `C_ERR` (R44). -/
  err : BitVec 2
  /-- `C_OUT`, the last sample (R45). -/
  cOut : F32
  /-- `P_OK`, the result of the last `PUSH` (R45). -/
  pOk : Bool
  /-- The model's own: how many NaN draws have been opened (log entry 2). -/
  draws : Nat
  /-- The model's own: what the last unit operation returned (log entry 5). -/
  unitOut : UnitOut
  /-- The model's own: the events still to come, the next one first (20_memory.md R69, log entry 4). -/
  inputs : List Input
deriving DecidableEq, Repr

/-- The all-zero snapshot, "a valid default" (70_reset_and_hazards.md R281). -/
def Snapshot.zero : Snapshot := ⟨fZero, fZero, fZero, fZero, fZero, fZero⟩

/-- `zeros(n)` (00_scope.md R6). -/
def zeros (n : Nat) : List F32 := List.replicate n fZero

/-- The state right after a reset with `CFG_IN`, `INIT` and `SEED_IN` all zero (R280; DESIGN CHOICE, log entry 1), with
no event to come. Any other reset is the input `Input.reset`. -/
def State.reset : State where
  cfg := 0x00#8
  pq := []
  wr := 0
  rd := 0
  act := Snapshot.zero
  derived := mapRegs 0 Snapshot.zero 0x00#8
  seed := Config.seedZeroSub
  envPh := fZero
  oscPh := fZero
  fmPh := fZero
  cnt := 0#32
  dl := zeros (mapRegs 0 Snapshot.zero 0x00#8).dlLen
  err := 0b00#2
  cOut := fZero
  pOk := false
  draws := 1
  unitOut := .nothing
  inputs := []

end Sys2Proof.Machine
end

