-- ==== Sys2Proof/Machine/Flags.lean ====
section
/-! DEFINITION. The Boolean results of the block (10_state.md R23): `P_OK`, the envelope gate, the counter gate and the
two sticky bits of `ERR`. -/

namespace Sys2Proof.Machine

/-! ## Full and empty (10_state.md R30) -/

/-- `COUNT = (WR - RD) mod (2*CAP)`. -/
def queueCount (wr rd : Nat) : Nat := (((wr : Int) - (rd : Int)) % ((2 * Config.cap : Nat) : Int)).toNat

/-- The queue is full when `COUNT = CAP`; `P_OK` of a `PUSH` is the opposite (41_param_channel.md R133). -/
def queueFull (s : State) : Bool := queueCount s.wr s.rd == Config.cap

/-! ## The gates -/

/-- The envelope gate on the phase after the advance: `fle(ENVPH, fmul(TWO_PI, DUTY))` (46_envelope_gate.md R211). -/
def envGate (n : Nat) (phase duty : F32) : Bool := fle phase (fmul (Config.nanAt n .envThr) twoPi duty)

/-- The counter gate on the sample index `cnt`: `flt(i2f(CNT mod PSAMP), fmul(DUTY, i2f(PSAMP)))`
(45_oscillator_fm.md R200). -/
def counterGate (n : Nat) (cnt : BitVec 32) (psamp : Nat) (duty : F32) : Bool :=
  flt (i2f (cnt.toNat % psamp)) (fmul (Config.nanAt n .cntThr) duty (i2f psamp))

/-! ## The sticky bits (10_state.md R44) -/

/-- `ERR.ILL_P`, bit 0. -/
def illP : BitVec 2 := 0b01#2

/-- `ERR.ILL_C`, bit 1. -/
def illC : BitVec 2 := 0b10#2

/-- The status output `P_ERR`. -/
def pErr (s : State) : Bool := s.err.getLsbD 0

/-- The status output `C_ERR`. -/
def cErr (s : State) : Bool := s.err.getLsbD 1

end Sys2Proof.Machine
end

