-- ==== Sys2Proof/Machine/Ops.lean ====
section
/-! DEFINITION. The operations the meanings share: the parameter ring and its cursors, the delay sequence, `MAP` on the
state, what an illegal command does, and reset. -/

namespace Sys2Proof.Machine

open Host (Outcome)

/-! ## The parameter ring (20_memory.md R62) -/

/-- `MemRead(PQ, i)`; `none` where nothing has been written since reset (10_state.md R31). -/
def Memory.read : Memory → Nat → Option Snapshot
  | [], _ => none
  | (k, v) :: m, i => if k = i then some v else Memory.read m i

/-- `MemWrite(PQ, i, v)`, keeping the indexes strictly rising. -/
def Memory.write : Memory → Nat → Snapshot → Memory
  | [], i, v => [(i, v)]
  | (k, u) :: m, i, v =>
    if i < k then (i, v) :: (k, u) :: m
    else if i = k then (i, v) :: m
    else (k, u) :: Memory.write m i v

/-- The ring with entry `i` held as absent, once it is freed (10_state.md R31, log entry 7). -/
def Memory.erase (m : Memory) (i : Nat) : Memory := m.filter fun e => decide (e.1 ≠ i)

/-- The canonical form: indexes below `CAP`, strictly rising. -/
def Memory.wf : Memory → Bool
  | [] => true
  | (k, _) :: m => decide (k < Config.cap) && m.all (fun e => decide (k < e.1)) && Memory.wf m

/-! ## The cursors (10_state.md R30, 40_numerics.md R113) -/

/-- The ring index of a cursor, `cursor mod CAP`. -/
def ringIndex (k : Nat) : Nat := k % Config.cap

/-- `(cursor + 1) mod (2*CAP)`. -/
def cursorNext (k : Nat) : Nat := (k + 1) % (2 * Config.cap)

/-- `(w - 1) mod CAP`, the ring index of the newest entry; 199 for `w = 0` (41_param_channel.md R136). -/
def newestIndex (w : Nat) : Nat := (((w : Int) - 1) % (Config.cap : Int)).toNat

/-- The entries held, oldest first (R30): the abstract list `Q` of 41_param_channel.md R139. -/
def held (s : State) : List Snapshot :=
  (List.range (queueCount s.wr s.rd)).filterMap fun i => Memory.read s.pq (ringIndex (s.rd + i))

/-! ## The model's own fields -/

/-- Open the next NaN draw (log entry 2). -/
def State.bump (s : State) : State := { s with draws := s.draws + 1 }

/-- Hand a unit operation's result to its caller (log entry 5). -/
def State.hand (s : State) (r : UnitOut) : State := { s with unitOut := r }

/-- Replace the events still to come (log entry 4). -/
def State.withInputs (s : State) (xs : List Input) : State := { s with inputs := xs }

/-! ## The delay sequence (44_delay_line.md) -/

/-- `DL_TICK(x)`: the oldest sample and the shifted sequence; the fault `DlEmpty` on an empty one (R181, R183). -/
def shiftDelay (x : F32) : List F32 → Except Fault (F32 × List F32)
  | [] => .error .dlEmpty
  | y :: rest => .ok (y, rest ++ [x])

/-- The clamped length of `DL_RESIZE(L)`: `min(max(1, L), DELAY_MAX)` (R184). -/
def clampLength (len : Nat) : Nat := min (max 1 len) Config.delayMax

/-- `DL_RESIZE(L)` (R184). -/
def resizeDelay (len : Nat) (s : State) : State := { s with dl := zeros (clampLength len) }

/-! ## MAP on the state (42_param_mapper.md R163) -/

/-- `MAP()`: the ten derived registers from `ACT` and `CFG`. -/
def mapOp (s : State) : State := { s with derived := mapRegs s.draws s.act s.cfg, draws := s.draws + 1 }

/-! ## Illegal words: this block's only exception (60_exceptions.md R254, R263) -/

/-- What a word that decodes to nothing does. An illegal command is discarded and sets its port's sticky bit, and
nothing else changes (30_encoding.md R88, log entry 8). There is no return from it (R264). A record that names no unit
operation is no event of this block, and is refused. -/
def takeReject (r : Reject) (s : State) : Outcome State Fault Refusal :=
  match r with
  | .illegalP _ => .next { s with err := s.err ||| illP }
  | .illegalC _ => .next { s with err := s.err ||| illC }
  | .unusedUnitCode _ => .refused .unusedUnitCode
  | .strayOperandBits _ => .refused .strayOperandBits

/-! ## Reset (70_reset_and_hazards.md R280) -/

/-- `SEED_IN`, with zero replaced (10_state.md R41). -/
def seedOf (seedIn : BitVec 32) : BitVec 32 := if seedIn = 0#32 then Config.seedZeroSub else seedIn

/-- `RESET(CFG_IN, INIT, SEED_IN)`: everything but the model's record of draws and of events to come is overwritten
(R283, R284); a reserved `CFG_IN` is refused (60_exceptions.md R258). -/
def resetOp (cfgIn : BitVec 8) (init : BitVec 192) (seedIn : BitVec 32) (s : State) : Outcome State Fault Refusal :=
  if legalCfg cfgIn then
    let s1 := mapOp
      { s with
        cfg := cfgIn
        pq := []
        wr := 0
        rd := 0
        err := 0b00#2
        pOk := false
        cOut := fZero
        act := Snapshot.ofWord init
        seed := seedOf seedIn
        envPh := fZero
        oscPh := fZero
        fmPh := fZero
        cnt := 0#32
        unitOut := .nothing }
    .next (resizeDelay s1.derived.dlLen s1)
  else .refused .badConfig

end Sys2Proof.Machine
end

