-- ==== Sys2Proof/Machine/Channel.lean ====
section
/-! DEFINITION. The Parameter Channel: `PUSH` and `DRAIN_LATEST` (41_param_channel.md). -/

namespace Sys2Proof.Machine

open Host (Outcome)

/-- `PUSH(p)`: enqueue, or drop the snapshot of a full queue; `P_OK` says which (R133). A full queue is a status
return, not a fault (60_exceptions.md R252). -/
def execPush (p : Snapshot) (s : State) : Outcome State Fault Refusal :=
  if queueFull s then .next { s with pOk := false }
  else .next { s with pq := s.pq.write (ringIndex s.wr) p, wr := cursorNext s.wr, pOk := true }

/-- `DRAIN_LATEST()`: the newest entry held, every entry freed; `none` and no change when nothing is pending (R136). `WR`
is read once (R137). With no entry held any more every entry is stale, and a stale one is held as absent (10_state.md
R31, log entry 7). -/
def drainLatest (s : State) : Except Fault (Option Snapshot × State) :=
  if queueCount s.wr s.rd = 0 then .ok (none, s)
  else match s.pq.read (newestIndex s.wr) with
    | none => .error .staleEntry
    | some p => .ok (some p, { s with pq := [], rd := s.wr })

/-- `DRAIN_LATEST` as one event (R136). -/
def execDrainLatest (s : State) : Outcome State Fault Refusal :=
  match drainLatest s with
  | .error f => .fault f
  | .ok (r, s') => .next (s'.hand (.snapshot r))

end Sys2Proof.Machine
end

