-- ==== Sys2Proof/Machine/DelayLine.lean ====
section
/-! DEFINITION. The Delay Line (44_delay_line.md). -/

namespace Sys2Proof.Machine

open Host (Outcome)

/-- `DL_TICK(x)` on the state: the oldest sample and the state with `DL` shifted (R181). -/
def dlTick (x : F32) (s : State) : Except Fault (F32 × State) :=
  match shiftDelay x s.dl with
  | .error f => .error f
  | .ok (y, dl') => .ok (y, { s with dl := dl' })

/-- `DL_TICK` as one event (R181). -/
def execDlTick (x : F32) (s : State) : Outcome State Fault Refusal :=
  match dlTick x s with
  | .error f => .fault f
  | .ok (y, s') => .next (s'.hand (.sample y))

/-- `DL_RESIZE` as one event (R184). -/
def execDlResize (len : Nat) (s : State) : Outcome State Fault Refusal :=
  .next ((resizeDelay len s).hand .nothing)

end Sys2Proof.Machine
end

