-- ==== Sys2Proof/Machine/Oscillator.lean ====
section
/-! DEFINITION. The Oscillator/FM Unit (45_oscillator_fm.md). -/

namespace Sys2Proof.Machine

open Host (Outcome)

/-- `WRAP(p)`: one comparison, at most one subtraction (R195). The first argument is the NaN of the subtraction. -/
def wrap (nan p : F32) : F32 := if fge p twoPi then fsub nan p twoPi else p

/-- The FM phase after its advance: `WRAP(fadd(FMPH, fmul(K, FMRATE)))` (R196). -/
def fmAdvance (n : Nat) (fmPh fmRate : F32) : F32 :=
  wrap (Config.nanAt n .fmWrap)
    (fadd (Config.nanAt n .fmAdd) fmPh (fmul (Config.nanAt n .fmInc) phaseK fmRate))

/-- The instantaneous frequency `fadd(CF, fmul(fmul(m, FMDEPTH), CF))` (R196). -/
def instantFreq (n : Nat) (m fmDepth cf : F32) : F32 :=
  fadd (Config.nanAt n .fiAdd) cf (fmul (Config.nanAt n .modCf) (fmul (Config.nanAt n .modMul) m fmDepth) cf)

/-- The carrier phase after its advance: `WRAP(fadd(OSCPH, fmul(K, fi)))` (R196). -/
def carrierAdvance (n : Nat) (oscPh fi : F32) : F32 :=
  wrap (Config.nanAt n .carWrap)
    (fadd (Config.nanAt n .carAdd) oscPh (fmul (Config.nanAt n .carInc) phaseK fi))

/-- `OSC_STEP()`: the sine of the new carrier phase, and the state with both phases advanced (R196). -/
def oscStep (s : State) : F32 × State :=
  let fmPh := fmAdvance s.draws s.fmPh s.derived.fmRate
  let fi := instantFreq s.draws (fsin fmPh) s.derived.fmDepth s.derived.cf
  let oscPh := carrierAdvance s.draws s.oscPh fi
  (fsin oscPh, ({ s with fmPh := fmPh, oscPh := oscPh } : State).bump)

/-- `OSC_STEP` as one event (R196). -/
def execOscStep (s : State) : Outcome State Fault Refusal :=
  .next ((oscStep s).2.hand (.sample (oscStep s).1))

/-- `CNT_GATE()`: the gate of the sample index (R200). `PSAMP = 0` is outside the invariants and faults. -/
def cntGate (s : State) : Except Fault (Bool × State) :=
  if s.derived.psamp = 0 then .error .psampZero
  else .ok (counterGate s.draws s.cnt s.derived.psamp s.derived.duty, s.bump)

/-- `CNT_GATE` as one event (R200). -/
def execCntGate (s : State) : Outcome State Fault Refusal :=
  match cntGate s with
  | .error f => .fault f
  | .ok (g, s') => .next (s'.hand (.gate g))

end Sys2Proof.Machine
end

