-- ==== Sys2Proof/Machine/Envelope.lean ====
section
/-! DEFINITION. The Envelope Gate (46_envelope_gate.md). -/

namespace Sys2Proof.Machine

open Host (Outcome)

/-- The envelope phase after its advance: `WRAP(fadd(ENVPH, fdiv(K, PERIOD)))` (R211). -/
def envAdvance (n : Nat) (envPh period : F32) : F32 :=
  wrap (Config.nanAt n .envWrap)
    (fadd (Config.nanAt n .envAdd) envPh (fdiv (Config.nanAt n .envInc) phaseK period))

/-- `ENV_STEP()`: the gate on the advanced phase, and the state with that phase (R211). -/
def envStep (s : State) : Bool × State :=
  let envPh := envAdvance s.draws s.envPh s.derived.period
  (envGate s.draws envPh s.derived.duty, ({ s with envPh := envPh } : State).bump)

/-- `ENV_STEP` as one event (R211). -/
def execEnvStep (s : State) : Outcome State Fault Refusal :=
  .next ((envStep s).2.hand (.gate (envStep s).1))

end Sys2Proof.Machine
end

