-- ==== Sys2Proof/Machine/Noise.lean ====
section
/-! DEFINITION. The Noise Generator (43_noise_generator.md), over the configured pair of functions. -/

namespace Sys2Proof.Machine

open Host (Outcome)

/-- `NOISE_STEP()`: `PRNG_OUT` of the stepped seed, and the state with `SEED` stepped (R171). -/
def noiseStep (s : State) : F32 × State :=
  (Config.generator.out (Config.generator.step s.seed), { s with seed := Config.generator.step s.seed })

/-- `NOISE_STEP` as one event (R171). -/
def execNoiseStep (s : State) : Outcome State Fault Refusal :=
  .next ((noiseStep s).2.hand (.sample (noiseStep s).1))

end Sys2Proof.Machine
end

