-- ==== Sys2Proof/Machine/Engine.lean ====
section
/-! DEFINITION. The Synthesis Engine: `NOP`, `FRAME`, `TICK` and the output stage `MIX_OUT` (47_synthesis_engine.md). -/

namespace Sys2Proof.Machine

open Host (Outcome)

/-- `NOP` on port P: the payload is ignored (R222, 30_encoding.md R89). -/
def execNopP (_payload : BitVec 192) (s : State) : Outcome State Fault Refusal := .next s

/-- `NOP` on port C (R222). -/
def execNopC (s : State) : Outcome State Fault Refusal := .next s

/-- Resize only when the derived length changed (44_delay_line.md R185). -/
def resizeIfChanged (s : State) : State :=
  if s.derived.dlLen ≠ s.dl.length then resizeDelay s.derived.dlLen s else s

/-- `FRAME()`: drain; if a snapshot was pending, apply it, recompute the derived registers, and resize the delay line if
its length changed (R224). -/
def execFrame (s : State) : Outcome State Fault Refusal :=
  match drainLatest s with
  | .error f => .fault f
  | .ok (none, s1) => .next s1
  | .ok (some p, s1) => .next (resizeIfChanged (mapOp { s1 with act := p }))

/-- A gate as a multiplexer: a closed gate selects `+0.0` (R232). -/
def gated (g : Bool) (x : F32) : F32 := if g then x else fZero

/-- The signal `CFG.MODE` passes to the gain, before it (R232). -/
def premix (n : Nat) (mode : Mode) (nsig osig : F32) : F32 :=
  match mode with
  | .noise => nsig
  | .osc => osig
  | .mix => fadd (Config.nanAt n .sumAdd) nsig osig

/-- `MIX_OUT(mixed, eg, osc, cg)` (R232). A reserved `CFG.MODE` is outside the invariants and faults. -/
def mixOut (mixed : F32) (eg : Bool) (osc : F32) (cg : Bool) (s : State) : Except Fault (F32 × State) :=
  match cfgMode s.cfg with
  | none => .error .modeReserved
  | some mode =>
    .ok (fmul (Config.nanAt s.draws .gainMul) (premix s.draws mode (gated eg mixed) (gated cg osc)) s.derived.og, s.bump)

/-- `MIX_OUT` as one event (R232). -/
def execMixOut (mixed : F32) (eg : Bool) (osc : F32) (cg : Bool) (s : State) : Outcome State Fault Refusal :=
  match mixOut mixed eg osc cg s with
  | .error f => .fault f
  | .ok (out, s') => .next (s'.hand (.sample out))

/-- Step 2 of `TICK`, the summer: `fadd(fmul(nz, DEPTH), fmul(FBG, old))` (R228). -/
def combMix (n : Nat) (nz depth fbg old : F32) : F32 :=
  fadd (Config.nanAt n .mixAdd) (fmul (Config.nanAt n .noiseMul) nz depth) (fmul (Config.nanAt n .feedbackMul) fbg old)

/-- `TICK()`: one output sample, by the unit operations in the order of R228; the oldest sample is read before the push
(R229), and every unit runs in every mode (R231). -/
def execTick (s : State) : Outcome State Fault Refusal :=
  let (nz, s1) := noiseStep s
  match s1.dl with
  | [] => .fault .dlEmpty
  | old :: _ =>
    let mixed := combMix s1.draws nz s1.derived.depth s1.derived.fbg old
    match dlTick mixed s1.bump with
    | .error f => .fault f
    | .ok (_, s2) =>
      let (eg, s3) := envStep s2
      let (osc, s4) := oscStep s3
      match cntGate s4 with
      | .error f => .fault f
      | .ok (cg, s5) =>
        match mixOut mixed eg osc cg s5 with
        | .error f => .fault f
        | .ok (out, s6) => .next { s6 with cnt := s6.cnt + 1#32, cOut := out }

end Sys2Proof.Machine
end

