-- ==== Sys2Proof/Machine/Mapper.lean ====
section
/-! DEFINITION. The Parameter Mapper's unit operation (42_param_mapper.md). -/

namespace Sys2Proof.Machine

open Host (Outcome)

/-- `MAP` as one event (R163). It has no result and no fault. -/
def execMap (s : State) : Outcome State Fault Refusal := .next ((mapOp s).hand .nothing)

end Sys2Proof.Machine
end

