-- ==== Sys2Proof/Machine/Dispatch.lean ====
section
/-! DEFINITION. One arm per constructor of Instr, each one call of its meaning. -/

namespace Sys2Proof.Machine

def exec (i : Instr) (s : State) : Host.Outcome State Fault Refusal :=
  match i with
  | .nopP payload => Sys2Proof.Machine.execNopP payload s
  | .nopC => Sys2Proof.Machine.execNopC s
  | .push p => Sys2Proof.Machine.execPush p s
  | .frame => Sys2Proof.Machine.execFrame s
  | .tick => Sys2Proof.Machine.execTick s
  | .drainLatest => Sys2Proof.Machine.execDrainLatest s
  | .map => Sys2Proof.Machine.execMap s
  | .dlResize len => Sys2Proof.Machine.execDlResize len s
  | .noiseStep => Sys2Proof.Machine.execNoiseStep s
  | .dlTick x => Sys2Proof.Machine.execDlTick x s
  | .envStep => Sys2Proof.Machine.execEnvStep s
  | .oscStep => Sys2Proof.Machine.execOscStep s
  | .cntGate => Sys2Proof.Machine.execCntGate s
  | .mixOut mixed eg osc cg => Sys2Proof.Machine.execMixOut mixed eg osc cg s

end Sys2Proof.Machine
end

