-- ==== Sys2Proof/Machine/Step.lean ====
section
/-! DEFINITION. One step: the next event of the run is accepted and completed (47_synthesis_engine.md R221,
20_memory.md R69). -/

namespace Sys2Proof.Machine

open Host (Outcome)

/-- A presented word runs the instruction it decodes to, or is rejected. -/
def runWord (w : CmdWord) (s : State) : Outcome State Fault Refusal :=
  match decode w with
  | .ok i => exec i s
  | .error r => takeReject r s

/-- What one event does to the state. -/
def accept (x : Input) (s : State) : Outcome State Fault Refusal :=
  match x with
  | .cmd w => runWord w s
  | .reset cfgIn init seedIn => resetOp cfgIn init seedIn s

/-- Take the next event of the run. With none to come the block holds its state (60_exceptions.md R272). -/
def step (s : State) : Outcome State Fault Refusal :=
  match s.inputs with
  | [] => .next s
  | x :: rest => accept x (s.withInputs rest)

/-- A sequence of events from a state, stopping at the first that does not complete (00_scope.md R9). -/
def feed : List Input → State → Outcome State Fault Refusal
  | [], s => .next s
  | x :: xs, s =>
    match accept x s with
    | .next s' => feed xs s'
    | .fault f => .fault f
    | .refused r => .refused r

/-- The state whose next event is the opcode-table word `w` of `nbits` bits (log entries 4 and 6). -/
def State.withFetchWord (s : State) (nbits w : Nat) : State :=
  match tableWord nbits w with
  | some cw => s.withInputs (.cmd cw :: s.inputs)
  | none => s

end Sys2Proof.Machine
end

