-- ==== Sys2Proof/Machine/Realisation.lean ====
section
/-! DEFINITION. Two other readings the spec gives of its memories, to be compared with the model's: the delay RAM with one
pointer (20_memory.md R67), and the drain as a loop of pops (41_param_channel.md R137). Neither is architectural state. -/

namespace Sys2Proof.Machine

/-- `DLRAM[0..len-1]`, the live words, and `DLPTR` (20_memory.md R67). -/
structure DelayRam where
  ram : List F32
  ptr : Nat
deriving DecidableEq, Repr

/-- `DL[i] = DLRAM[(DLPTR + i) mod len(DL)]` (R67). -/
def DelayRam.sequence (r : DelayRam) : List F32 :=
  (List.range r.ram.length).map fun i => r.ram.getD ((r.ptr + i) % r.ram.length) fZero

/-- `DL_TICK(x)` in the RAM: one read and one write at the pointer, the read first (R67). -/
def DelayRam.tick (x : F32) (r : DelayRam) : F32 × DelayRam :=
  (r.ram.getD r.ptr fZero, { ram := r.ram.set r.ptr x, ptr := (r.ptr + 1) % r.ram.length })

/-- `DL_RESIZE(L)` in the RAM (R67). -/
def DelayRam.resize (len : Nat) : DelayRam := { ram := zeros (clampLength len), ptr := 0 }

/-- `POP()`: the oldest entry held, which it frees (41_param_channel.md R137). -/
def popOldest (s : State) : Option (Snapshot × State) :=
  if queueCount s.wr s.rd = 0 then none
  else (s.pq.read (ringIndex s.rd)).map fun p =>
    (p, { s with pq := s.pq.erase (ringIndex s.rd), rd := cursorNext s.rd })

/-- `loop { r <- POP(); if r = none then break; last <- r }` (R137), at most `fuel` times round. -/
def popLoop : Nat → Option Snapshot → State → Option Snapshot × State
  | 0, last, s => (last, s)
  | fuel + 1, last, s =>
    match popOldest s with
    | none => (last, s)
    | some (p, s') => popLoop fuel (some p) s'

end Sys2Proof.Machine
end

