-- ==== Sys2Proof/Safety.lean ====
section
/-! DEFINITION. The terms claims use: the invariants of the state, which agent an event belongs to, ranges of binary32
values, and the accuracy bounds the spec leaves open. -/

namespace Sys2Proof.Safety

open Sys2Proof.Machine
open Host (Outcome)

/-! ## Invariants -/

/-- What holds of the state after every reset and is kept by every event (10_state.md R27, R30, R36, R47,
43_noise_generator.md R173, 60_exceptions.md R258). -/
structure Inv (s : State) : Prop where
  /-- `CFG` is a configuration of this hardware (R258). -/
  cfgLegal : legalCfg s.cfg = true
  /-- `WR` is in `[0, 2*CAP)` (R30). -/
  wrRange : s.wr < 2 * Config.cap
  /-- `RD` is in `[0, 2*CAP)` (R30). -/
  rdRange : s.rd < 2 * Config.cap
  /-- `COUNT <= CAP` (R30). -/
  countLe : queueCount s.wr s.rd ≤ Config.cap
  /-- The ring is in its canonical form (R60). -/
  ringWf : s.pq.wf = true
  /-- Every entry held has been written (R31). -/
  liveWritten : ∀ i < queueCount s.wr s.rd, (s.pq.read (ringIndex (s.rd + i))).isSome = true
  /-- Every other entry is stale, and holds no value (R31). -/
  heldOnly : ∀ e ∈ s.pq, ∃ i < queueCount s.wr s.rd, e.1 = ringIndex (s.rd + i)
  /-- The derived registers are a cache of `MAP` (R27), up to the NaN patterns of the draw that computed them. -/
  derivedCache : ∃ n, s.derived = mapRegs n s.act s.cfg
  /-- `SEED != 0` (R173). -/
  seedNonzero : s.seed ≠ 0#32
  /-- `len(DL) >= 1` (R47). -/
  delayNonempty : 1 ≤ s.dl.length
  /-- `len(DL) <= DELAY_MAX` (R36). -/
  delayBounded : s.dl.length ≤ Config.delayMax

/-- `len(DL) = DLLEN`, which holds at every command boundary (R36); a unit operation run on its own may break it. -/
def Synced (s : State) : Prop := s.dl.length = s.derived.dlLen

/-! ## Events -/

/-- A word of port P. -/
def isPortP : Input → Bool
  | .cmd (.portP _) => true
  | .cmd (.portC _) => false
  | .cmd (.unit _ _) => false
  | .reset _ _ _ => false

/-- A word of port C. -/
def isPortC : Input → Bool
  | .cmd (.portP _) => false
  | .cmd (.portC _) => true
  | .cmd (.unit _ _) => false
  | .reset _ _ _ => false

/-- A word of either port. -/
def isPort (x : Input) : Bool := isPortP x || isPortC x

/-- A reset. -/
def isReset : Input → Bool
  | .cmd _ => false
  | .reset _ _ _ => true

/-- The event whose word decodes to `i`. -/
def runs (i : Instr) (x : Input) : Bool :=
  match x with
  | .cmd w => decide ((decode w).toOption = some i)
  | .reset _ _ _ => false

/-- The event is a `TICK`. -/
def isTick (x : Input) : Bool := runs .tick x

/-- The event is a `FRAME`. -/
def isFrame (x : Input) : Bool := runs .frame x

/-- The event is a `PUSH`. -/
def isPush : Input → Bool
  | .cmd (.portP w) => decide (opP w = 0x1#4)
  | .cmd (.portC _) => false
  | .cmd (.unit _ _) => false
  | .reset _ _ _ => false

/-- The event that presents an instruction's word. -/
def present (i : Instr) : Input := .cmd (encode i)

/-! ## Runs of the delay line -/

/-- The results of `DL_TICK` for a sequence of operands, and the state after them. -/
def delayResults : List F32 → State → Option (List F32 × State)
  | [], s => some ([], s)
  | x :: xs, s =>
    match exec (.dlTick x) s with
    | .next s' =>
      match s'.unitOut with
      | .sample y => (delayResults xs s').map fun r => (y :: r.1, r.2)
      | .nothing => none
      | .snapshot _ => none
      | .gate _ => none
    | .fault _ => none
    | .refused _ => none

/-! ## Ranges of binary32 values -/

/-- `lo <= x <= hi`, false on a NaN. -/
def between (lo hi x : F32) : Bool := fle lo x && fle x hi

/-- `x` is in `[0, 2π)`. -/
def phaseInRange (x : F32) : Bool := fle fZero x && flt x twoPi

/-- `r` is a binary32 nearest to `v / d`, in units of `2^-149`, and on a tie the one whose pattern is even
(40_numerics.md R101, R102). -/
def NearestTo (r : F32) (v d : Int) : Prop :=
  ∀ w, isFinite w = true → |scaled r * d - v| ≤ |scaled w * d - v| ∧
    (|scaled r * d - v| = |scaled w * d - v| → scaled w = scaled r ∨ r.getLsbD 0 = false)

/-- `r` is the exact value `v / d`, in units of `2^-149`, rounded once (R101, R102): below `2^128 - 2^103` in magnitude
finite and nearest, from there on the infinity with the sign of the value, `neg`. -/
def RoundsOnce (r : F32) (v d : Int) (neg : Bool) : Prop :=
  (|v| < (2 ^ 128 - 2 ^ 103) * 2 ^ 149 * |d| → isFinite r = true ∧ NearestTo r v d) ∧
  ((2 ^ 128 - 2 ^ 103) * 2 ^ 149 * |d| ≤ |v| → r = if neg then 0xFF800000#32 else 0x7F800000#32)

/-! ## Accuracy (40_numerics.md R111 S5, R112 E4): bounds the spec leaves open -/

/-- (S5) with the bound `err`: a premise a claim may take, assumed nowhere. A value in units of `2^-149` over `2^149` is
the real number the pattern stands for. -/
def SinWithin (err : ℝ) : Prop :=
  ∀ x, isFinite x = true → |(scaled (fsin x) : ℝ) / 2 ^ 149 - Real.sin ((scaled x : ℝ) / 2 ^ 149)| ≤ err

/-- (E4) with the bound `err`: a premise a claim may take, assumed nowhere. -/
def Exp2Within (err : ℝ) : Prop :=
  ∀ x, isFinite x = true → isFinite (fexp2 x) = true →
    |(scaled (fexp2 x) : ℝ) / 2 ^ 149 - (2 : ℝ) ^ ((scaled x : ℝ) / 2 ^ 149)|
      ≤ err * (2 : ℝ) ^ ((scaled x : ℝ) / 2 ^ 149)

end Sys2Proof.Safety
end

