-- ==== Sys2Proof/Certificates/Slice0/Obligations.lean ====
section
/-! DEFINITION. The statements for the provers, from the spec's numbered rules. -/

open Sys2Proof Sys2Proof.Machine Sys2Proof.Safety
open Host (Outcome)

/-! ## Encoding -/

/-- Decoding the word of a well-formed instruction gives it back, with every operand at every value (30_encoding.md R82 to R87). -/
def Obligations.DecodeOfEncode : Prop :=
  ∀ i : Instr, i.WellFormed → decode (encode i) = .ok i

/-- The words of R94, written out from their fields. -/
def Obligations.WrittenWordsDecode : Prop :=
  (∀ payload : BitVec 192, decode (.portP (0x0#4 ++ payload)) = .ok (.nopP payload)) ∧
  decode (.portP (0x1#4 ++ 0x3F800000#32 ++ 0xBF800000#32 ++ 0x00000000#32 ++ 0x00000000#32 ++ 0x00000000#32 ++ 0x00000000#32))
    = .ok (.push ⟨0x00000000#32, 0x00000000#32, 0x00000000#32, 0x00000000#32, 0xBF800000#32, 0x3F800000#32⟩) ∧
  decode (.portP (0x1#4 ++ 0x00000000#32 ++ 0xBF800000#32 ++ 0x3F800000#32 ++ 0x3E800000#32 ++ 0xBF000000#32 ++ 0x3F000000#32))
    = .ok (.push ⟨0x3F000000#32, 0xBF000000#32, 0x3E800000#32, 0x3F800000#32, 0xBF800000#32, 0x00000000#32⟩) ∧
  decode (.portC 0x2#4) = .ok .frame ∧
  decode (.portC 0x3#4) = .ok .tick ∧
  cfgWord 0b01#2 true false false = 0x05#8 ∧
  cfgWord 0b10#2 false false true = 0x12#8

/-! ## Steps -/

/-- A step whose next event is a word that decodes to `i` is `exec i` of the state past that event, and with no event to
come the block holds all its state (60_exceptions.md R272). -/
def Obligations.StepRunsDecodedInstruction : Prop :=
  (∀ (s : State) (w : CmdWord) (rest : List Input) (i : Instr),
    s.inputs = .cmd w :: rest → decode w = .ok i → step s = exec i { s with inputs := rest }) ∧
  ∀ s : State, s.inputs = [] → step s = .next s

/-- An illegal word is discarded and sets its port's sticky bit, and nothing else changes (R88, R254; that the model goes
on rather than refuses is log entry 8). Every reserved code and every code of the other port behaves so. -/
def Obligations.IllegalWordSetsItsStickyBitOnly : Prop :=
  (∀ (s : State) (w : BitVec 196) (rest : List Input), s.inputs = .cmd (.portP w) :: rest →
    opP w ≠ 0x0#4 → opP w ≠ 0x1#4 →
    step s = .next { s with inputs := rest, err := s.err ||| 0b01#2 }) ∧
  (∀ (s : State) (w : BitVec 4) (rest : List Input), s.inputs = .cmd (.portC w) :: rest →
    w ≠ 0x0#4 → w ≠ 0x2#4 → w ≠ 0x3#4 →
    step s = .next { s with inputs := rest, err := s.err ||| 0b10#2 })

/-- Feeding events one by one is stepping through them (the model's own run, log entry 4; R221). -/
def Obligations.StepsAreFeed : Prop :=
  ∀ (xs rest : List Input) (s t : State), feed xs (s.withInputs rest) = .next t →
    Host.Core.run Sys2Proof.core xs.length (s.withInputs (xs ++ rest)) = .next t

/-! ## Reset -/

/-- The reset procedure (70_reset_and_hazards.md R280, 60_exceptions.md R258): a reserved `CFG_IN` is refused, any other leaves
the state the procedure lists. -/
def Obligations.ResetProcedure : Prop :=
  ∀ (s : State) (cfgIn : BitVec 8) (init : BitVec 192) (seedIn : BitVec 32) (rest : List Input),
    s.inputs = .reset cfgIn init seedIn :: rest →
    ((cfgIn.extractLsb' 0 2 = 0b11#2 ∨ cfgIn.extractLsb' 5 3 ≠ 0b000#3) → step s = .refused .badConfig) ∧
    (cfgIn.extractLsb' 0 2 ≠ 0b11#2 → cfgIn.extractLsb' 5 3 = 0b000#3 →
      ∃ t, step s = .next t ∧ t.cfg = cfgIn ∧ t.wr = 0 ∧ t.rd = 0 ∧ t.err = 0b00#2 ∧ t.pOk = false ∧
        t.cOut = 0x00000000#32 ∧ t.act = Snapshot.ofWord init ∧
        t.derived = mapRegs s.draws (Snapshot.ofWord init) cfgIn ∧
        t.dl = List.replicate t.derived.dlLen 0x00000000#32 ∧
        t.seed = (if seedIn = 0#32 then 0x9E3779B9#32 else seedIn) ∧
        t.envPh = 0x00000000#32 ∧ t.oscPh = 0x00000000#32 ∧ t.fmPh = 0x00000000#32 ∧ t.cnt = 0#32 ∧
        t.inputs = rest)

/-- `State.reset` is what a reset with all three inputs zero leaves (the model's choice of the inputs, log entry 1). -/
def Obligations.ResetStateIsTheZeroReset : Prop :=
  ∀ s : State, s.draws = 0 → s.inputs = [] →
    accept (.reset 0x00#8 0#192 0x00000000#32) s = .next State.reset

/-- The invariants hold at reset. -/
def Obligations.ResetMeetsInvariant : Prop := Inv State.reset ∧ Synced State.reset

/-! ## Invariants of every step -/

/-- Every step keeps the invariants, whatever the event (10_state.md R27, R30, R31, R36, R47, R173). -/
def Obligations.StepKeepsInvariant : Prop :=
  ∀ s t : State, Inv s → step s = .next t → Inv t

/-- At every command boundary `len(DL) = DLLEN` (10_state.md R36): a command of either port and a reset keep it. -/
def Obligations.CommandsKeepDelayLength : Prop :=
  ∀ (s t : State) (x : Input) (rest : List Input), Inv s → Synced s → s.inputs = x :: rest →
    (isPort x = true ∨ isReset x = true) → step s = .next t → Synced t

/-- From the invariants no contract fault of 60_exceptions.md R250 can occur: every instruction completes, and so does every
word of either port, legal or not (20_memory.md R71, 44_delay_line.md R183; what an illegal word does is log entry 8). -/
def Obligations.EveryCommandCompletes : Prop :=
  (∀ (i : Instr) (s : State), Inv s → ∃ t, exec i s = .next t) ∧
  (∀ (s : State) (x : Input) (rest : List Input), Inv s → s.inputs = x :: rest → isPort x = true →
    ∃ t, step s = .next t)

/-- Off the invariants the contract faults of R250: `DlEmpty` (R253), and the model's own three, for the zero `PSAMP`, the
reserved `MODE` and the unwritten ring entry (log entry 7). -/
def Obligations.ContractFaultsOffTheInvariants : Prop :=
  (∀ s : State, s.dl = [] → exec .tick s = .fault .dlEmpty) ∧
  (∀ s : State, s.dl ≠ [] → s.derived.psamp = 0 → exec .tick s = .fault .psampZero) ∧
  (∀ s : State, s.dl ≠ [] → s.derived.psamp ≠ 0 → s.cfg.extractLsb' 0 2 = 0b11#2 →
    exec .tick s = .fault .modeReserved) ∧
  (∀ s : State, s.derived.psamp = 0 → exec .cntGate s = .fault .psampZero) ∧
  (∀ (mixed osc : F32) (eg cg : Bool) (s : State), s.cfg.extractLsb' 0 2 = 0b11#2 →
    exec (.mixOut mixed eg osc cg) s = .fault .modeReserved) ∧
  (∀ s : State, queueCount s.wr s.rd ≠ 0 → s.pq.read (newestIndex s.wr) = none →
    exec .frame s = .fault .staleEntry ∧ exec .drainLatest s = .fault .staleEntry)

/-! ## The Parameter Channel -/

/-- `PUSH` (41_param_channel.md R133). -/
def Obligations.PushEnqueuesOrDrops : Prop :=
  ∀ (p : Snapshot) (s : State),
    exec (.push p) s =
      if ((s.wr : Int) - s.rd) % 400 = 200 then .next { s with pOk := false }
      else .next { s with pq := s.pq.write (s.wr % 200) p, wr := (s.wr + 1) % 400, pOk := true }

/-- A successful `PUSH` stores its snapshot bit for bit at `WR mod CAP`, and every other ring entry reads as before
(R132, R133). -/
def Obligations.PushStoresOneEntry : Prop :=
  ∀ (p : Snapshot) (s : State), s.pq.wf = true → queueFull s = false →
    ∃ t, exec (.push p) s = .next t ∧ t.pq.wf = true ∧ t.pq.read (ringIndex s.wr) = some p ∧
      ∀ i, i ≠ ringIndex s.wr → t.pq.read i = s.pq.read i

/-- `DRAIN_LATEST` (R136), its result handed over in the model's own field (log entry 5). The entries it frees are stale,
and the model holds them as absent (10_state.md R31, log entry 7). -/
def Obligations.DrainLatestTakesTheNewest : Prop :=
  (∀ s : State, queueCount s.wr s.rd = 0 →
    exec .drainLatest s = .next { s with unitOut := .snapshot none }) ∧
  (∀ (s : State) (p : Snapshot), queueCount s.wr s.rd ≠ 0 →
    s.pq.read (((s.wr : Int) - 1) % 200).toNat = some p →
    exec .drainLatest s = .next { s with pq := [], rd := s.wr, unitOut := .snapshot (some p) })

/-- The abstraction of R139: with `Q` the list of entries held, reset gives `[]`, `PUSH` appends unless `len(Q) = CAP`, and
`DRAIN_LATEST` answers the last entry and empties the list. -/
def Obligations.ChannelIsABoundedList : Prop :=
  held State.reset = [] ∧
  (∀ (p : Snapshot) (s : State), Inv s →
    ∃ t, exec (.push p) s = .next t ∧
      ((held s).length = 200 → t.pOk = false ∧ held t = held s) ∧
      ((held s).length ≠ 200 → t.pOk = true ∧ held t = held s ++ [p])) ∧
  (∀ s : State, Inv s →
    ∃ t, exec .drainLatest s = .next t ∧ held t = [] ∧
      t.unitOut = .snapshot (held s).getLast?)

/-- With no push interleaved, popping until the queue is empty gives the value and the state of `DRAIN_LATEST` (R137). -/
def Obligations.DrainIsThePopLoop : Prop :=
  ∀ (s : State) (fuel : Nat), Inv s → queueCount s.wr s.rd ≤ fuel →
    drainLatest s = .ok (popLoop fuel none s)

/-- Last write wins (R140): after an accepted `PUSH p`, whatever port words follow without another accepted push or a
`FRAME` (a push that is refused may stand among them), the next `FRAME` applies `p`. -/
def Obligations.FrameAppliesTheNewestAcceptedPush : Prop :=
  ∀ (s s1 s2 : State) (p : Snapshot) (xs : List Input), Inv s →
    exec (.push p) s = .next s1 → s1.pOk = true →
    (∀ x ∈ xs, isPort x = true ∧ isFrame x = false) →
    (∀ (ys zs : List Input) (x : Input) (u v : State), xs = ys ++ x :: zs → isPush x = true →
      feed ys s1 = .next u → accept x u = .next v → v.pOk = false) →
    feed xs s1 = .next s2 →
    ∃ t, exec .frame s2 = .next t ∧ t.act = p ∧ queueCount t.wr t.rd = 0

/-- The overflow scenario (R141), for any number of pushes from an empty queue: exactly the first 200 are accepted, a `FRAME`
then applies the 200th and empties the queue, and the next `PUSH` is accepted. -/
def Obligations.OverflowDropsTheNewest : Prop :=
  ∀ (s : State) (ps : List Snapshot), Inv s → queueCount s.wr s.rd = 0 →
    (∀ (k : Nat), 1 ≤ k → k ≤ ps.length →
      ∃ t, feed ((ps.take k).map fun p => present (.push p)) s = .next t ∧ t.pOk = decide (k ≤ 200)) ∧
    (200 ≤ ps.length →
      ∃ t u, feed (ps.map fun p => present (.push p)) s = .next t ∧
        exec .frame t = .next u ∧ ps[199]? = some u.act ∧ queueCount u.wr u.rd = 0 ∧
        ∀ q, ∃ v, exec (.push q) u = .next v ∧ v.pOk = true)

/-! ## The Synthesis Engine -/

/-- `NOP` changes nothing, on either port and with any payload (47_synthesis_engine.md R222). -/
def Obligations.NopChangesNothing : Prop :=
  ∀ (s : State) (payload : BitVec 192), exec (.nopP payload) s = .next s ∧ exec .nopC s = .next s

/-- `FRAME` (R224): nothing pending, nothing changes; a snapshot pending, it is applied, the derived registers are
recomputed, and the delay line is replaced by zeros of the new length exactly when its length changed
(44_delay_line.md R185). The entries freed are held as absent (log entry 7). -/
def Obligations.FrameAppliesAndResizes : Prop :=
  (∀ s : State, queueCount s.wr s.rd = 0 → exec .frame s = .next s) ∧
  (∀ (s : State) (p : Snapshot), queueCount s.wr s.rd ≠ 0 →
    s.pq.read (newestIndex s.wr) = some p →
    exec .frame s = .next { s with
      pq := []
      rd := s.wr
      act := p
      derived := mapRegs s.draws p s.cfg
      dl := if (mapRegs s.draws p s.cfg).dlLen ≠ s.dl.length
        then List.replicate (mapRegs s.draws p s.cfg).dlLen 0x00000000#32 else s.dl
      draws := s.draws + 1 })

/-- `TICK` (R228): the registers it writes, from the oldest sample and the registers before it; all else is unchanged. The
draw numbers are the model's (log entry 2). -/
def Obligations.TickProducesOneSample : Prop :=
  ∀ (s : State) (old : F32) (rest : List F32) (mode : Mode), s.dl = old :: rest → s.derived.psamp ≠ 0 →
    cfgMode s.cfg = some mode →
    exec .tick s =
      (let seed := prngStep s.seed
       let mixed := fadd (Config.nanAt s.draws .mixAdd)
         (fmul (Config.nanAt s.draws .noiseMul) (prngOut seed) s.derived.depth)
         (fmul (Config.nanAt s.draws .feedbackMul) s.derived.fbg old)
       let envPh := envAdvance (s.draws + 1) s.envPh s.derived.period
       let eg := envGate (s.draws + 1) envPh s.derived.duty
       let fmPh := fmAdvance (s.draws + 2) s.fmPh s.derived.fmRate
       let fi := instantFreq (s.draws + 2) (fsin fmPh) s.derived.fmDepth s.derived.cf
       let oscPh := carrierAdvance (s.draws + 2) s.oscPh fi
       let cg := counterGate (s.draws + 3) s.cnt s.derived.psamp s.derived.duty
       let pre := premix (s.draws + 4) mode (if eg then mixed else 0x00000000#32)
         (if cg then fsin oscPh else 0x00000000#32)
       .next { s with
         seed := seed
         dl := rest ++ [mixed]
         envPh := envPh
         fmPh := fmPh
         oscPh := oscPh
         cnt := s.cnt + 1#32
         cOut := fmul (Config.nanAt (s.draws + 4) .gainMul) pre s.derived.og
         draws := s.draws + 5 })

/-- `TICK` is its unit operations run one after the other, each on the operands the rule hands it (R228). -/
def Obligations.TickIsItsUnitOperations : Prop :=
  ∀ (s t : State), exec .tick s = .next t →
    ∃ (nz old y osc out : F32) (eg cg : Bool) (s1 s2 s3 s4 s5 s6 : State),
      exec .noiseStep s = .next s1 ∧ s1.unitOut = .sample nz ∧ s1.dl.head? = some old ∧
      exec (.dlTick (combMix s1.draws nz s1.derived.depth s1.derived.fbg old)) s1.bump = .next s2 ∧
      s2.unitOut = .sample y ∧ y = old ∧
      exec .envStep s2 = .next s3 ∧ s3.unitOut = .gate eg ∧
      exec .oscStep s3 = .next s4 ∧ s4.unitOut = .sample osc ∧
      exec .cntGate s4 = .next s5 ∧ s5.unitOut = .gate cg ∧
      exec (.mixOut (combMix s1.draws nz s1.derived.depth s1.derived.fbg old) eg osc cg) s5 = .next s6 ∧
      s6.unitOut = .sample out ∧
      t = { s6 with cnt := s6.cnt + 1#32, cOut := out, unitOut := s.unitOut }

/-- `MIX_OUT` (R232), in the three modes. -/
def Obligations.MixOutSelectsSumsAndScales : Prop :=
  ∀ (mixed osc : F32) (eg cg : Bool) (s : State),
    let nsig := if eg then mixed else 0x00000000#32
    let osig := if cg then osc else 0x00000000#32
    let result := fun pre : F32 => ({ s with
      draws := s.draws + 1
      unitOut := .sample (fmul (Config.nanAt s.draws .gainMul) pre s.derived.og) } : State)
    (s.cfg.extractLsb' 0 2 = 0b00#2 → exec (.mixOut mixed eg osc cg) s = .next (result nsig)) ∧
    (s.cfg.extractLsb' 0 2 = 0b01#2 → exec (.mixOut mixed eg osc cg) s = .next (result osig)) ∧
    (s.cfg.extractLsb' 0 2 = 0b10#2 → exec (.mixOut mixed eg osc cg) s =
      .next (result (fadd (Config.nanAt s.draws .sumAdd) nsig osig)))

/-- In `NOISE` mode a `TICK` whose envelope gate is closed outputs a zero, whatever the noise path carries, if the output
gain is finite (R232, R233). -/
def Obligations.ClosedGateIsSilent : Prop :=
  ∀ s t : State, cfgMode s.cfg = some .noise → isFinite s.derived.og = true →
    envGate (s.draws + 1) (envAdvance (s.draws + 1) s.envPh s.derived.period) s.derived.duty = false →
    exec .tick s = .next t → isZero t.cOut = true

/-- The mode selects only what reaches the output (R231, R237): for the same port words, two blocks that differ in
`CFG.MODE` and `C_OUT` alone still differ in these alone. -/
def Obligations.ModeSelectsOnlyTheOutput : Prop :=
  ∀ (s t s' : State) (x : Input) (rest : List Input), Inv s → Inv t → isPort x = true →
    s.inputs = x :: rest →
    t.cfg.extractLsb' 2 6 = s.cfg.extractLsb' 2 6 → t = { s with cfg := t.cfg, cOut := t.cOut } →
    step s = .next s' →
    ∃ t', step t = .next t' ∧ t' = { s' with cfg := t.cfg, cOut := t'.cOut }

/-- The comb filter (R230): with `N = len(DL)` and no resize, the sample that enters at tick `N + 1` is the noise scaled
by `DEPTH` plus `FBG` times the sample that entered at tick 1. -/
def Obligations.CombFilterRecurrence : Prop :=
  ∀ (s s1 t u : State) (v w : F32), feed [present .tick] s = .next s1 → s1.dl.getLast? = some v →
    feed (List.replicate s.dl.length (present .tick)) s = .next t →
    feed [present .tick] t = .next u → u.dl.getLast? = some w →
    w = fadd (Config.nanAt t.draws .mixAdd)
      (fmul (Config.nanAt t.draws .noiseMul) (prngOut (prngStep t.seed)) s.derived.depth)
      (fmul (Config.nanAt t.draws .feedbackMul) s.derived.fbg v)

/-! ## The Parameter Mapper -/

/-- `MAP` (42_param_mapper.md R163), with `REMAP(x) = fadd(fdiv(x, 2.0), 0.5)` (R151). The first argument of each operation
is the NaN of its place, were it to answer one (log entry 2). -/
def Obligations.MapComputesTheDerivedRegisters : Prop :=
  ∀ s : State,
    let q := Config.nanAt s.draws
    let remap := fun (ctl : Config.Ctl) (x : F32) =>
      fadd (q (.remapAdd ctl)) (fdiv (q (.remapDiv ctl)) x 0x40000000#32) 0x3F000000#32
    let aN := remap .a s.act.a
    let bN := remap .b s.act.b
    let cN := remap .c s.act.c
    let dN := remap .d s.act.d
    let eN := remap .e s.act.e
    let fN := remap .f s.act.f
    let period := fadd (q .periodAdd) (fmul (q .periodMul) aN 0x40000000#32) 0x3DCCCCCD#32
    let raw := if s.cfg.getLsbD 4 = false then fexp2 (fmul (q .rawMul) eN 0x40800000#32)
      else fmul (q .rawMul) eN 0x472C4400#32
    exec .map s = .next { s with
      derived := {
        period := period
        duty := bN
        cf := fexp2 (fadd (q .cfAdd) 0x40A00000#32 (fmul (q .cfMul) eN 0x41100000#32))
        fmRate := if s.cfg.getLsbD 2 = false then fexp2 (fmul (q .fmRateMul) cN 0x41000000#32)
          else fmul (q .fmRateMul) 0x40000000#32 cN
        fmDepth := if s.cfg.getLsbD 3 = false then fmul (q .fmDepthMul) dN 0x40000000#32
          else fexp2 (fadd (q .fmDepthAdd) 0x40A00000#32 (fmul (q .fmDepthMul) dN 0x41100000#32))
        depth := dN
        fbg := cN
        og := fN
        dlLen := max 1 (f2iSat (fround raw) 44100)
        psamp := max 1 (f2iSat (fround (fmul (q .psampMul) period 0x472C4400#32)) (2 ^ 32 - 1)) }
      draws := s.draws + 1
      unitOut := .nothing }

/-- `1 <= DLLEN <= DELAY_MAX` and `1 <= PSAMP <= 2^32 - 1` for every input pattern, NaNs included (R160, R162). -/
def Obligations.MapIsTotal : Prop :=
  ∀ (n : Nat) (act : Snapshot) (cfg : BitVec 8),
    1 ≤ (mapRegs n act cfg).dlLen ∧ (mapRegs n act cfg).dlLen ≤ 44100 ∧
    1 ≤ (mapRegs n act cfg).psamp ∧ (mapRegs n act cfg).psamp ≤ 2 ^ 32 - 1

/-- `REMAP` takes `[-1, 1]` into `[0, 1]` (R151, 40_numerics.md R114). -/
def Obligations.RemapIntoUnitInterval : Prop :=
  ∀ (n : Nat) (ctl : Config.Ctl) (p : Snapshot), between 0xBF800000#32 0x3F800000#32 (control p ctl) = true →
    between 0x00000000#32 0x3F800000#32 (remap n ctl p) = true

/-- Under `DELAY_MAP = EXP` an in-range control `e` derives a delay of 1 to 16 samples (R160, 40_numerics.md R112). -/
def Obligations.ExpDelayBetween1And16 : Prop :=
  ∀ (n : Nat) (act : Snapshot) (cfg : BitVec 8), cfg.getLsbD 4 = false →
    between 0xBF800000#32 0x3F800000#32 act.e = true →
    1 ≤ (mapRegs n act cfg).dlLen ∧ (mapRegs n act cfg).dlLen ≤ 16

/-! ## The Noise Generator -/

/-- `NOISE_STEP` (43_noise_generator.md R171): the three shifts, and the value of R172. -/
def Obligations.NoiseStepAdvancesTheSeed : Prop :=
  ∀ s : State,
    let x1 := s.seed ^^^ (s.seed <<< 13)
    let x2 := x1 ^^^ (x1 >>> 17)
    let x3 := x2 ^^^ (x2 <<< 5)
    exec .noiseStep s = .next { s with seed := x3, unitOut := .sample (prngOut x3) }

/-- The noise value is `n * 2^-23` exactly, with `n` the top 24 bits as a signed integer, lies in `[-1, 1)`, and is
`+0.0` for `n = 0` (R172). -/
def Obligations.NoiseValueIsExact : Prop :=
  ∀ x : BitVec 32, isFinite (prngOut x) = true ∧
    scaled (prngOut x) * 2 ^ 23 = (x.extractLsb' 8 24).toInt * 2 ^ 149 ∧
    fle 0xBF800000#32 (prngOut x) = true ∧ flt (prngOut x) 0x3F800000#32 = true ∧
    (x.extractLsb' 8 24 = 0#24 → prngOut x = 0x00000000#32)

/-- `PRNG_STEP` is one to one and takes only zero to zero (R171, R173). -/
def Obligations.PrngStepIsInjective : Prop :=
  (∀ x y : BitVec 32, prngStep x = prngStep y → x = y) ∧ ∀ x : BitVec 32, prngStep x = 0#32 ↔ x = 0#32

/-- The noise sequence depends on the seed and the number of ticks alone (R174): after any port words, `k` of them ticks,
the seed has been stepped `k` times. -/
def Obligations.NoiseDependsOnSeedAndTicksOnly : Prop :=
  ∀ (xs : List Input) (s t : State), (∀ x ∈ xs, isPort x = true) → feed xs s = .next t →
    t.seed = prngStep^[xs.countP isTick] s.seed

/-! ## The Delay Line -/

/-- `DL_TICK` (44_delay_line.md R181), and its contract fault on an empty sequence (R183). -/
def Obligations.DelayTickShiftsOnePlace : Prop :=
  (∀ (x y : F32) (rest : List F32) (s : State), s.dl = y :: rest →
    exec (.dlTick x) s = .next { s with dl := rest ++ [x], unitOut := .sample y }) ∧
  (∀ (x : F32) (s : State), s.dl = [] → exec (.dlTick x) s = .fault .dlEmpty)

/-- `DL_RESIZE` (R184). -/
def Obligations.DelayResizeClearsToClampedLength : Prop :=
  ∀ (len : Nat) (s : State),
    exec (.dlResize len) s =
      .next { s with dl := List.replicate (min (max 1 len) 44100) 0x00000000#32, unitOut := .nothing }

/-- The pure delay law (R186): with `N = len(DL)`, call number `k + N` returns the operand of call number `k`. -/
def Obligations.DelayLineIsAPureDelay : Prop :=
  ∀ (xs : List F32) (s : State), s.dl ≠ [] →
    ∃ ys t, delayResults xs s = some (ys, t) ∧ t.dl.length = s.dl.length ∧ ys.length = xs.length ∧
      ∀ k, k + s.dl.length < xs.length → ys[k + s.dl.length]? = xs[k]?

/-- The reset law (R187): after a resize the next `n` calls return `+0.0`, with `n` the clamped length. -/
def Obligations.ResizedDelayReturnsZeros : Prop :=
  ∀ (len : Nat) (xs : List F32) (s t : State), exec (.dlResize len) s = .next t →
    xs.length ≤ min (max 1 len) 44100 →
    ∃ u, delayResults xs t = some (List.replicate xs.length 0x00000000#32, u)

/-- The RAM with one pointer realises the delay sequence (20_memory.md R67). -/
def Obligations.DelayRamRefinesTheSequence : Prop :=
  (∀ (x : F32) (r : DelayRam), r.ptr < r.ram.length →
    shiftDelay x r.sequence = .ok ((r.tick x).1, (r.tick x).2.sequence) ∧
    (r.tick x).2.ptr < (r.tick x).2.ram.length) ∧
  (∀ (len : Nat) (s : State), (DelayRam.resize len).sequence = (resizeDelay len s).dl ∧
    (DelayRam.resize len).ptr < (DelayRam.resize len).ram.length)

/-! ## The Oscillator/FM Unit -/

/-- `WRAP` subtracts `TWO_PI` once at most (45_oscillator_fm.md R195), so that `[0, 4π)` is taken into `[0, 2π)`. -/
def Obligations.WrapBringsBelowTwoPi : Prop :=
  ∀ nan p : F32,
    wrap nan p = (if fge p 0x40C90FDB#32 then fsub nan p 0x40C90FDB#32 else p) ∧
    (fle 0x00000000#32 p = true → flt p 0x41490FDB#32 = true → phaseInRange (wrap nan p) = true)

/-- `OSC_STEP` (R196). -/
def Obligations.OscStepAdvancesBothPhases : Prop :=
  ∀ s : State,
    let q := Config.nanAt s.draws
    let fmPh := wrap (q .fmWrap) (fadd (q .fmAdd) s.fmPh (fmul (q .fmInc) 0x39156593#32 s.derived.fmRate))
    let m := fsin fmPh
    let fi := fadd (q .fiAdd) s.derived.cf (fmul (q .modCf) (fmul (q .modMul) m s.derived.fmDepth) s.derived.cf)
    let oscPh := wrap (q .carWrap) (fadd (q .carAdd) s.oscPh (fmul (q .carInc) 0x39156593#32 fi))
    exec .oscStep s = .next { s with
      fmPh := fmPh, oscPh := oscPh, draws := s.draws + 1, unitOut := .sample (fsin oscPh) }

/-- `CNT_GATE` (R200). -/
def Obligations.CounterGateComparesTheIndex : Prop :=
  ∀ s : State, 1 ≤ s.derived.psamp →
    exec .cntGate s = .next { s with
      draws := s.draws + 1
      unitOut := .gate (flt (i2f (s.cnt.toNat % s.derived.psamp))
        (fmul (Config.nanAt s.draws .cntThr) s.derived.duty (i2f s.derived.psamp))) }

/-- `DUTY = 0` closes the counter gate on every sample of every period, `DUTY = 1` opens it on every sample of a period
of at most `2^24` samples (R200, R201). -/
def Obligations.CounterGateExtremes : Prop :=
  (∀ (n psamp : Nat) (cnt : BitVec 32), 1 ≤ psamp → counterGate n cnt psamp 0x00000000#32 = false) ∧
  ∀ (n psamp : Nat) (cnt : BitVec 32), 1 ≤ psamp → psamp ≤ 2 ^ 24 → counterGate n cnt psamp 0x3F800000#32 = true

/-- The FM phase stays in `[0, 2π)` while `FMRATE` is in `[0, 256]` (R198). -/
def Obligations.FmPhaseStaysInRange : Prop :=
  ∀ s t : State, phaseInRange s.fmPh = true → between 0x00000000#32 0x43800000#32 s.derived.fmRate = true →
    exec .oscStep s = .next t → phaseInRange t.fmPh = true

/-! ## The Envelope Gate -/

/-- `ENV_STEP` (46_envelope_gate.md R211). -/
def Obligations.EnvStepAdvancesThenCompares : Prop :=
  ∀ s : State,
    let q := Config.nanAt s.draws
    let inc := fdiv (q .envInc) 0x39156593#32 s.derived.period
    let envPh := wrap (q .envWrap) (fadd (q .envAdd) s.envPh inc)
    let thr := fmul (q .envThr) 0x40C90FDB#32 s.derived.duty
    exec .envStep s = .next { s with
      envPh := envPh, draws := s.draws + 1, unitOut := .gate (fle envPh thr) }

/-- For a period of 0.1 s to 2.1 s the envelope phase stays in `[0, 2π)` (R213), and a duty cycle of 1 keeps the gate open
(R215). -/
def Obligations.EnvPhaseStaysInRange : Prop :=
  ∀ s t : State, phaseInRange s.envPh = true → between 0x3DCCCCCD#32 0x40066666#32 s.derived.period = true →
    exec .envStep s = .next t →
    phaseInRange t.envPh = true ∧ (s.derived.duty = 0x3F800000#32 → t.unitOut = .gate true)

/-- A NaN envelope phase closes the gate and stays a NaN, through `ENV_STEP` and through every sequence of port words,
until a reset (R216, 70_reset_and_hazards.md R296). -/
def Obligations.NanPhaseClosesTheGateForEver : Prop :=
  (∀ s t : State, isNaN s.envPh = true → exec .envStep s = .next t →
    isNaN t.envPh = true ∧ t.unitOut = .gate false) ∧
  ∀ (xs : List Input) (s t : State), (∀ x ∈ xs, isPort x = true) → isNaN s.envPh = true → feed xs s = .next t →
    isNaN t.envPh = true ∧ ∀ u, exec .envStep t = .next u → u.unitOut = .gate false

/-! ## Whole-machine rules -/

/-- A word of port P writes only `PQ`, `WR`, `P_OK` and `ERR.ILL_P`; a word of port C never writes a `PQ` entry, `WR`,
`P_OK`, `CFG` or `ERR.ILL_P` (60_exceptions.md R266, 10_state.md R29). A `FRAME` may free entries, which are then held
as absent (log entry 7), and no other word of port C touches `PQ` at all. -/
def Obligations.AgentsWriteOnlyTheirOwnState : Prop :=
  (∀ (s t : State) (x : Input), isPortP x = true → accept x s = .next t →
    t = { s with pq := t.pq, wr := t.wr, pOk := t.pOk, err := t.err } ∧
    t.err.getLsbD 1 = s.err.getLsbD 1) ∧
  (∀ (s t : State) (x : Input), isPortC x = true → accept x s = .next t →
    (∀ (i : Nat) (p : Snapshot), t.pq.read i = some p → s.pq.read i = some p) ∧
    (isFrame x = false → t.pq = s.pq) ∧
    t.wr = s.wr ∧ t.pOk = s.pOk ∧ t.cfg = s.cfg ∧ t.err.getLsbD 0 = s.err.getLsbD 0)

/-- The sample counter advances by one modulo `2^32` for each `TICK` and for no other word (10_state.md R35, R268). -/
def Obligations.CounterCountsTicks : Prop :=
  ∀ (s t : State) (x : Input), isPort x = true → accept x s = .next t →
    t.cnt = if isTick x then s.cnt + 1#32 else s.cnt

/-- Only a reset changes `CFG` or clears an error bit (70_reset_and_hazards.md R303, 60_exceptions.md R264). -/
def Obligations.OnlyResetChangesCfgOrClearsErr : Prop :=
  ∀ (s t : State) (x : Input), isReset x = false → accept x s = .next t →
    t.cfg = s.cfg ∧ ∀ k, s.err.getLsbD k = true → t.err.getLsbD k = true

/-! ## Numerics -/

/-- `fadd` and `fsub` (40_numerics.md R101, R102): the exact sum or difference of finite operands rounded once, to nearest,
ties to even, overflowing to the infinity of its sign; the NaN of a NaN operand and of infinities that cancel, otherwise
an infinite operand's infinity; and the sign of a zero result. -/
def Obligations.AddRoundsToNearestEven : Prop :=
  (∀ nan x y : F32, isFinite x = true → isFinite y = true →
    RoundsOnce (fadd nan x y) (scaled x + scaled y) 1 (decide (scaled x + scaled y < 0)) ∧
    RoundsOnce (fsub nan x y) (scaled x - scaled y) 1 (decide (scaled x - scaled y < 0)) ∧
    (scaled x + scaled y = 0 →
      fadd nan x y = if sgn x = true ∧ sgn y = true then 0x80000000#32 else 0x00000000#32) ∧
    (scaled x - scaled y = 0 →
      fsub nan x y = if sgn x = true ∧ sgn y = false then 0x80000000#32 else 0x00000000#32)) ∧
  (∀ nan x y : F32, isNaN x = true ∨ isNaN y = true → fadd nan x y = nan ∧ fsub nan x y = nan) ∧
  (∀ nan x y : F32, isInf x = true → isInf y = true →
    fadd nan x y = (if sgn x = sgn y then x else nan) ∧ fsub nan x y = (if sgn x = sgn y then nan else x)) ∧
  (∀ nan x y : F32, isInf x = true → isFinite y = true → fadd nan x y = x ∧ fsub nan x y = x) ∧
  (∀ nan x y : F32, isFinite x = true → isInf y = true →
    fadd nan x y = y ∧ fsub nan x y = if sgn y = true then 0x7F800000#32 else 0xFF800000#32)

/-- `fmul` (R101, R102): the exact product of finite operands rounded once, to nearest, ties to even, overflowing to the
infinity of its sign; the NaN of a NaN operand and of `0 * inf`; and the sign of every other result, the exclusive-or of
the operands' signs. -/
def Obligations.MulRoundsToNearestEven : Prop :=
  (∀ nan x y : F32, isFinite x = true → isFinite y = true →
    RoundsOnce (fmul nan x y) (scaled x * scaled y) (2 ^ 149) (sgn x != sgn y) ∧
    sgn (fmul nan x y) = (sgn x != sgn y)) ∧
  (∀ nan x y : F32, isNaN x = true ∨ isNaN y = true ∨ (isInf x = true ∧ isZero y = true) ∨
    (isZero x = true ∧ isInf y = true) → fmul nan x y = nan) ∧
  (∀ nan x y : F32, isNaN x = false → isNaN y = false → isZero x = false → isZero y = false →
    (isInf x = true ∨ isInf y = true) →
    fmul nan x y = if (sgn x != sgn y) = true then 0xFF800000#32 else 0x7F800000#32)

/-- `fdiv` (R101, R102): the exact quotient of finite operands rounded once, to nearest, ties to even, overflowing to the
infinity of its sign; the NaN of a NaN operand, of `0 / 0` and of `inf / inf`; the infinity of a division by zero; and the
sign of every result that is no NaN, the exclusive-or of the operands' signs. The phase constant `K` is
`fdiv(TWO_PI, SR)` (R106). -/
def Obligations.DivRoundsToNearestEven : Prop :=
  (∀ nan x y : F32, isFinite x = true → isFinite y = true → isZero y = false →
    RoundsOnce (fdiv nan x y) (scaled x * 2 ^ 149) (scaled y) (sgn x != sgn y) ∧
    sgn (fdiv nan x y) = (sgn x != sgn y)) ∧
  (∀ nan x y : F32, isNaN x = true ∨ isNaN y = true ∨ (isZero x = true ∧ isZero y = true) ∨
    (isInf x = true ∧ isInf y = true) → fdiv nan x y = nan) ∧
  (∀ nan x y : F32, isNaN x = false → isZero x = false → isZero y = true →
    fdiv nan x y = if (sgn x != sgn y) = true then 0xFF800000#32 else 0x7F800000#32) ∧
  (∀ nan x y : F32, isInf x = true → isFinite y = true →
    fdiv nan x y = if (sgn x != sgn y) = true then 0xFF800000#32 else 0x7F800000#32) ∧
  (∀ nan x y : F32, isFinite x = true → isInf y = true →
    fdiv nan x y = if (sgn x != sgn y) = true then 0x80000000#32 else 0x00000000#32) ∧
  ∀ nan : F32, fdiv nan 0x40C90FDB#32 0x472C4400#32 = phaseK ∧ phaseK = 0x39156593#32

/-- `fle`, `flt` and `fge` (R104): false on a NaN, the order of the values otherwise, with the zeros equal and the
infinities at the ends. -/
def Obligations.ComparisonsFollowTheValues : Prop :=
  (∀ x y : F32, isNaN x = true ∨ isNaN y = true → fle x y = false ∧ flt x y = false ∧ fge x y = false) ∧
  (∀ x y : F32, isFinite x = true → isFinite y = true →
    (fle x y = true ↔ scaled x ≤ scaled y) ∧ (flt x y = true ↔ scaled x < scaled y) ∧
    (fge x y = true ↔ scaled y ≤ scaled x)) ∧
  (∀ x y : F32, isZero x = true → isZero y = true → fle x y = true ∧ flt x y = false ∧ fge x y = true) ∧
  (∀ x : F32, isNaN x = false → fle 0xFF800000#32 x = true ∧ fle x 0x7F800000#32 = true ∧
    fge x 0xFF800000#32 = true ∧ fge 0x7F800000#32 x = true) ∧
  (∀ x : F32, isFinite x = true → flt 0xFF800000#32 x = true ∧ flt x 0x7F800000#32 = true ∧
    fle x 0xFF800000#32 = false ∧ fle 0x7F800000#32 x = false)

/-- `i2f` is the nearest binary32, ties to even, and exact up to `2^24` (R107). -/
def Obligations.IntToFloatRoundsToNearestEven : Prop :=
  (∀ n : Nat, n < 2 ^ 32 → isFinite (i2f n) = true ∧ NearestTo (i2f n) ((n : Int) * 2 ^ 149) 1) ∧
  (∀ n : Nat, n ≤ 2 ^ 24 → scaled (i2f n) = (n : Int) * 2 ^ 149)

/-- `fround` of a finite value is the nearest integer, halves away from zero, with the operand's sign (the sign of a zero
result is log entry 9); of any other it is the operand (R108). -/
def Obligations.RoundHalvesAwayFromZero : Prop :=
  (∀ x : F32, isFinite x = false → fround x = x) ∧
  ∀ x : F32, isFinite x = true → isFinite (fround x) = true ∧ sgn (fround x) = sgn x ∧
    ∃ k : Nat, mag (fround x) = k * 2 ^ 149 ∧ 2 * k * 2 ^ 149 ≤ 2 * mag x + 2 ^ 149 ∧
      2 * mag x + 2 ^ 149 < 2 * (k + 1) * 2 ^ 149

/-- `f2i_sat` (R109), for every bound: 0 for a NaN and for `x <= 0`, the bound for `x` at or above it, `+inf` included,
and the integer `x` equals otherwise. -/
def Obligations.FloatToIntSaturates : Prop :=
  ∀ (x : F32) (hi : Nat),
    (isNaN x = true ∨ fle x 0x00000000#32 = true → f2iSat x hi = 0) ∧
    (isFinite x = true → (hi : Int) * 2 ^ 149 ≤ scaled x → f2iSat x hi = hi) ∧
    f2iSat 0x7F800000#32 hi = hi ∧
    (∀ k : Nat, isFinite x = true → scaled x = (k : Int) * 2 ^ 149 → k ≤ hi → f2iSat x hi = k)

/-- The properties (S1) to (S4) of `fsin` (R111). -/
def Obligations.SineProperties : Prop :=
  (∀ x, isFinite x = true → isFinite (fsin x) = true ∧
    between 0xBF800000#32 0x3F800000#32 (fsin x) = true) ∧
  fsin 0x00000000#32 = 0x00000000#32 ∧
  ∀ x, isFinite x = false → isNaN (fsin x) = true

/-- The properties (E1) to (E3) of `fexp2` (R112). -/
def Obligations.Exp2Properties : Prop :=
  (∀ (x : F32) (k : Int), isNaN x = false → scaled x = k * 2 ^ 149 → -126 ≤ k → k ≤ 127 →
    isFinite (fexp2 x) = true ∧ scaled (fexp2 x) = 2 ^ (k + 149).toNat) ∧
  (∀ x y, fle x y = true → fle (fexp2 x) (fexp2 y) = true) ∧
  (∀ x, fle 0x43000000#32 x = true → fexp2 x = 0x7F800000#32) ∧
  fexp2 0xFF800000#32 = 0x00000000#32 ∧
  (∀ x, isNaN x = true → isNaN (fexp2 x) = true) ∧
  (∀ x, flt x 0x43000000#32 = true → isFinite (fexp2 x) = true ∧ fle 0x00000000#32 (fexp2 x) = true)
end

