-- ==== Sys2Proof/Laws/Float.lean ====
section
/-! SUPPORT. Facts about the binary32 patterns and the one rounding function: what a pattern's fields are, that
magnitudes are ordered as their patterns, and that rounding answers the nearest magnitude. -/

namespace Sys2Proof.Laws

open Sys2Proof.Machine Sys2Proof.Safety

/-! ## The fields of a pattern -/

/-- The magnitude of the low 31 bits `m` of a pattern, in units of `2^-149`. -/
def magBits (m : Nat) : Nat := if m / 2 ^ 23 = 0 then m % 2 ^ 23 else (2 ^ 23 + m % 2 ^ 23) * 2 ^ (m / 2 ^ 23 - 1)

/-- The low 31 bits of a pattern. -/
def low31 (x : F32) : Nat := x.toNat % 2 ^ 31

theorem low31_lt (x : F32) : low31 x < 2 ^ 31 := Nat.mod_lt _ (by decide)

theorem expo_eq (x : F32) : expo x = low31 x / 2 ^ 23 := by
  simp only [expo, low31, BitVec.extractLsb'_toNat, Nat.shiftRight_eq_div_pow]; omega

theorem frac_eq (x : F32) : frac x = low31 x % 2 ^ 23 := by
  simp only [frac, low31, BitVec.extractLsb'_toNat, Nat.shiftRight_eq_div_pow]; omega

theorem sgn_eq (x : F32) : sgn x = decide (2 ^ 31 ≤ x.toNat) := by
  have := x.isLt
  simp only [sgn, ← BitVec.testBit_toNat, Nat.testBit_eq_decide_div_mod_eq]
  congr 1
  simp only [eq_iff_iff]
  omega

theorem mag_eq (x : F32) : mag x = magBits (low31 x) := by
  simp only [mag, magBits, expo_eq, frac_eq]

theorem toNat_pack {neg : Bool} {m : Nat} (h : m < 2 ^ 31) :
    (pack neg m).toNat = m + if neg then 2 ^ 31 else 0 := by
  simp only [pack, BitVec.toNat_ofNat]; cases neg <;> simp <;> omega

theorem low31_pack {neg : Bool} {m : Nat} (h : m < 2 ^ 31) : low31 (pack neg m) = m := by
  simp only [low31, toNat_pack h]; cases neg <;> simp <;> omega

theorem sgn_pack {neg : Bool} {m : Nat} (h : m < 2 ^ 31) : sgn (pack neg m) = neg := by
  rw [sgn_eq, toNat_pack h]
  cases neg <;> simp
  omega

theorem mag_pack {neg : Bool} {m : Nat} (h : m < 2 ^ 31) : mag (pack neg m) = magBits m := by
  rw [mag_eq, low31_pack h]

@[simp] theorem low31_fneg (x : F32) : low31 (fneg x) = low31 x := by
  rw [low31, fneg, BitVec.toNat_xor, Nat.xor_mod_two_pow]; exact Nat.xor_zero _

@[simp] theorem sgn_fneg (x : F32) : sgn (fneg x) = !sgn x := by simp [sgn, fneg]

/-- A pattern is its sign and its low 31 bits. -/
theorem pack_self (x : F32) : pack (sgn x) (low31 x) = x := by
  apply BitVec.eq_of_toNat_eq
  have := x.isLt
  rw [toNat_pack (low31_lt x), sgn_eq, low31]
  by_cases h : 2 ^ 31 ≤ x.toNat
  · rw [decide_eq_true h, if_pos rfl]; omega
  · rw [decide_eq_false h, if_neg Bool.false_ne_true]; omega

theorem isFinite_iff (x : F32) : isFinite x = true ↔ low31 x < infBits := by
  have := low31_lt x
  simp only [isFinite, bne_iff_ne, ne_eq, expo_eq, infBits]; omega

theorem isNaN_iff (x : F32) : isNaN x = true ↔ infBits < low31 x := by
  have := low31_lt x
  simp only [isNaN, Bool.and_eq_true, beq_iff_eq, bne_iff_ne, ne_eq, expo_eq, frac_eq, infBits]; omega

theorem isInf_iff (x : F32) : isInf x = true ↔ low31 x = infBits := by
  have := low31_lt x
  simp only [isInf, Bool.and_eq_true, beq_iff_eq, expo_eq, frac_eq, infBits]; omega

theorem isZero_iff (x : F32) : isZero x = true ↔ low31 x = 0 := by
  have := low31_lt x
  simp only [isZero, Bool.and_eq_true, beq_iff_eq, expo_eq, frac_eq]; omega

theorem isFinite_pack {neg : Bool} {m : Nat} (h : m < infBits) : isFinite (pack neg m) = true := by
  rw [isFinite_iff, low31_pack (by simp only [infBits] at h; omega)]; exact h

theorem isNaN_pack {neg : Bool} {m : Nat} (h : m ≤ infBits) : isNaN (pack neg m) = false := by
  rw [← Bool.not_eq_true, isNaN_iff, low31_pack (by simp only [infBits] at h; omega)]; omega

theorem not_nan_of_finite {x : F32} (h : isFinite x = true) : isNaN x = false := by
  rw [← Bool.not_eq_true, isNaN_iff]; rw [isFinite_iff] at h; omega

theorem not_inf_of_finite {x : F32} (h : isFinite x = true) : isInf x = false := by
  rw [← Bool.not_eq_true, isInf_iff]; rw [isFinite_iff] at h; omega

/-- A drawn NaN is a NaN. -/
@[simp] theorem isNaN_nanAt (n : Nat) (site : Config.Site) : isNaN (Config.nanAt n site) = true := by
  unfold Config.nanAt; split
  · assumption
  · decide

theorem scaled_natAbs (x : F32) : (scaled x).natAbs = mag x := by
  simp only [scaled]; split <;> simp

theorem scaled_pack {neg : Bool} {m : Nat} (h : m < 2 ^ 31) :
    scaled (pack neg m) = if neg then -(magBits m : Int) else magBits m := by
  simp only [scaled, sgn_pack h, mag_pack h]

/-! ## Magnitudes are ordered as their patterns -/

theorem magBits_lt_succ (m : Nat) : magBits m < magBits (m + 1) := by
  unfold magBits
  by_cases h : (m + 1) / 2 ^ 23 = m / 2 ^ 23
  · rw [h]
    have hm : (m + 1) % 2 ^ 23 = m % 2 ^ 23 + 1 := by omega
    split
    · omega
    · rw [hm]; exact Nat.mul_lt_mul_of_pos_right (by omega) (by positivity)
  · have h1 : (m + 1) / 2 ^ 23 = m / 2 ^ 23 + 1 := by omega
    have h2 : (m + 1) % 2 ^ 23 = 0 := by omega
    have h3 : m % 2 ^ 23 = 2 ^ 23 - 1 := by omega
    rw [h1, h2, h3]
    by_cases h4 : m / 2 ^ 23 = 0
    · rw [if_pos h4, if_neg (by omega), h4]; decide
    · obtain ⟨e, he⟩ : ∃ e, m / 2 ^ 23 = e + 1 := ⟨m / 2 ^ 23 - 1, by omega⟩
      rw [if_neg h4, if_neg (by omega), he, Nat.add_sub_cancel, Nat.add_sub_cancel, pow_succ 2 e]
      have := Nat.two_pow_pos e
      generalize 2 ^ e = t at *
      omega

theorem magBits_strictMono : StrictMono magBits := strictMono_nat_of_lt_succ magBits_lt_succ

theorem magBits_lt {a b : Nat} : magBits a < magBits b ↔ a < b := magBits_strictMono.lt_iff_lt

theorem magBits_le {a b : Nat} : magBits a ≤ magBits b ↔ a ≤ b := magBits_strictMono.le_iff_le

/-- The pattern of a significand of `m` units of `2^k`: subnormal or first binade when `k = 0`, normal otherwise. -/
theorem magBits_significand {m k : Nat} (hm : m ≤ 2 ^ 24) (hk : k = 0 ∨ 2 ^ 23 ≤ m) :
    magBits (m + k * 2 ^ 23) = m * 2 ^ k := by
  unfold magBits
  rcases Nat.lt_or_ge m (2 ^ 23) with h1 | h1
  · have hk0 : k = 0 := by omega
    subst hk0
    have h2 : (m + 0 * 2 ^ 23) / 2 ^ 23 = 0 := by omega
    simp only [h2, if_true]; omega
  · rcases Nat.lt_or_ge m (2 ^ 24) with h3 | h3
    · have h2 : (m + k * 2 ^ 23) / 2 ^ 23 = k + 1 := by omega
      have h4 : (m + k * 2 ^ 23) % 2 ^ 23 = m - 2 ^ 23 := by omega
      simp only [h2, h4, Nat.succ_ne_zero, if_false, Nat.add_sub_cancel]
      rw [show 2 ^ 23 + (m - 2 ^ 23) = m by omega]
    · have h2 : (m + k * 2 ^ 23) / 2 ^ 23 = k + 2 := by omega
      have h4 : (m + k * 2 ^ 23) % 2 ^ 23 = 0 := by omega
      have h5 : m = 2 ^ 23 * 2 := by omega
      simp only [h2, h4, if_neg (Nat.succ_ne_zero (k + 1)), Nat.add_zero]
      rw [h5, Nat.mul_assoc, ← Nat.pow_succ' (n := k)]
      rfl

/-- A magnitude from the binade of unit `2^k` on is a multiple of `2^k`. -/
theorem dvd_magBits {m k : Nat} (h : (k + 1) * 2 ^ 23 ≤ m) : 2 ^ k ∣ magBits m := by
  unfold magBits
  have h1 : k + 1 ≤ m / 2 ^ 23 := by omega
  rw [if_neg (by omega)]
  exact Dvd.dvd.mul_left (Nat.pow_dvd_pow 2 (by omega)) _

/-! ## Rounding -/

/-- The rounded pattern before an overflow turns it into an infinity. -/
def roundRaw (n d : Nat) : Nat :=
  nearestEven n (d * 2 ^ (Nat.log2 (n / d) - 23)) + (Nat.log2 (n / d) - 23) * 2 ^ 23

theorem roundMag_eq (n d : Nat) : roundMag n d = min (roundRaw n d) infBits := rfl

theorem roundMag_le (n d : Nat) : roundMag n d ≤ infBits := Nat.min_le_right _ _

theorem roundMag_lt_31 (n d : Nat) : roundMag n d < 2 ^ 31 :=
  lt_of_le_of_lt (roundMag_le n d) (by decide)

/-- `nearestEven n d` is a nearest integer to `n / d`. -/
theorem nearestEven_nearest {n d : Nat} (hd : 0 < d) (j : Nat) :
    |((nearestEven n d * d : Nat) : Int) - n| ≤ |((j * d : Nat) : Int) - n| := by
  have hn := Nat.div_add_mod n d
  have hr := Nat.mod_lt n hd
  have hab : 2 * |((nearestEven n d * d : Nat) : Int) - n| ≤ d ∧
      (nearestEven n d = n / d ∨ nearestEven n d = n / d + 1) := by
    have hq : ((nearestEven n d * d : Nat) : Int) - n =
        if nearestEven n d = n / d then -((n % d : Nat) : Int) else
          ((nearestEven n d * d : Nat) : Int) - n := by
      split
      · rename_i h; rw [h]
        have : ((n / d * d + n % d : Nat) : Int) = (n : Int) := by rw [mul_comm, hn]
        push_cast at this ⊢; linarith
      · rfl
    have hq1 : nearestEven n d = n / d + 1 →
        ((nearestEven n d * d : Nat) : Int) - n = (d : Int) - (n % d : Nat) := by
      intro h; rw [h]
      have : ((n / d * d + n % d : Nat) : Int) = (n : Int) := by rw [mul_comm, hn]
      push_cast at this ⊢; linarith
    have hcase : (nearestEven n d = n / d ∧ 2 * (n % d) ≤ d) ∨
        (nearestEven n d = n / d + 1 ∧ d ≤ 2 * (n % d)) := by
      unfold nearestEven
      rcases Nat.lt_trichotomy (2 * (n % d)) d with h | h | h
      · left; rw [if_pos h]; exact ⟨rfl, by omega⟩
      · rw [if_neg (by omega), if_neg (by omega)]
        rcases Nat.mod_two_eq_zero_or_one (n / d) with h2 | h2 <;> rw [h2]
        · left; exact ⟨by omega, by omega⟩
        · right; exact ⟨rfl, by omega⟩
      · right; rw [if_neg (by omega), if_pos h]; exact ⟨rfl, by omega⟩
    rcases hcase with ⟨h1, h2⟩ | ⟨h1, h2⟩
    · refine ⟨?_, Or.inl h1⟩
      rw [hq, if_pos h1, abs_neg, abs_of_nonneg (by positivity)]; omega
    · refine ⟨?_, Or.inr h1⟩
      rw [hq1 h1, abs_of_nonneg (by omega)]; omega
  by_cases hj : j = nearestEven n d
  · rw [hj]
  · -- another integer is at least one whole `d` away from the nearest one
    have hdist : (d : Int) ≤ |((j * d : Nat) : Int) - ((nearestEven n d * d : Nat) : Int)| := by
      have h1 : (1 : Int) ≤ |(j : Int) - nearestEven n d| := Int.one_le_abs (by omega)
      have h2 : ((j * d : Nat) : Int) - ((nearestEven n d * d : Nat) : Int) =
          ((j : Int) - nearestEven n d) * d := by push_cast; ring
      rw [h2, abs_mul, abs_of_nonneg (show (0 : Int) ≤ d by positivity)]
      nlinarith [h1, (show (0 : Int) ≤ d by positivity)]
    have htri := abs_sub_le ((j * d : Nat) : Int) n ((nearestEven n d * d : Nat) : Int)
    rw [abs_sub_comm (n : Int)] at htri
    linarith [hab.1]

theorem nearestEven_le {n d j : Nat} (hd : 0 < d) (h : n ≤ j * d) : nearestEven n d ≤ j := by
  by_contra hc
  have h1 := nearestEven_nearest (n := n) hd j
  have h2 : (j + 1) * d ≤ nearestEven n d * d := Nat.mul_le_mul_right d (by omega)
  have h3 : j * d + d ≤ nearestEven n d * d := by linarith [Nat.add_mul j 1 d]
  rw [abs_of_nonneg (by omega), abs_of_nonneg (by omega)] at h1
  omega

theorem le_nearestEven {n d j : Nat} (hd : 0 < d) (h : j * d ≤ n) : j ≤ nearestEven n d := by
  by_contra hc
  have h1 := nearestEven_nearest (n := n) hd j
  have h2 : (nearestEven n d + 1) * d ≤ j * d := Nat.mul_le_mul_right d (by omega)
  have h3 : nearestEven n d * d + d ≤ j * d := by linarith [Nat.add_mul (nearestEven n d) 1 d]
  rw [abs_of_nonpos (by omega), abs_of_nonpos (by omega)] at h1
  omega

/-- The unit of the result: with `k` the shift, the quotient is below `2^(24+k)`, and at least `2^(23+k)` if `k > 0`. -/
theorem shift_bounds {n d : Nat} (hd : 0 < d) :
    n < 2 ^ 24 * (d * 2 ^ (Nat.log2 (n / d) - 23)) ∧
      (Nat.log2 (n / d) - 23 = 0 ∨ 2 ^ 23 * (d * 2 ^ (Nat.log2 (n / d) - 23)) ≤ n) := by
  have hlt : n < (n / d + 1) * d := by
    have := Nat.div_add_mod n d; have := Nat.mod_lt n hd; nlinarith
  have h1 : n / d < 2 ^ (Nat.log2 (n / d) + 1) := Nat.lt_log2_self
  constructor
  · calc n < (n / d + 1) * d := hlt
      _ ≤ 2 ^ (24 + (Nat.log2 (n / d) - 23)) * d := by
        apply Nat.mul_le_mul_right
        have : 2 ^ (Nat.log2 (n / d) + 1) ≤ 2 ^ (24 + (Nat.log2 (n / d) - 23)) :=
          Nat.pow_le_pow_right (by decide) (by omega)
        omega
      _ = 2 ^ 24 * (d * 2 ^ (Nat.log2 (n / d) - 23)) := by rw [pow_add]; ring
  · by_cases hk : Nat.log2 (n / d) - 23 = 0
    · exact Or.inl hk
    · right
      have hne : n / d ≠ 0 := by
        intro h0; rw [h0] at hk; exact hk (by decide)
      have h2 : 2 ^ Nat.log2 (n / d) ≤ n / d := Nat.log2_self_le hne
      calc 2 ^ 23 * (d * 2 ^ (Nat.log2 (n / d) - 23)) = 2 ^ (23 + (Nat.log2 (n / d) - 23)) * d := by
            rw [pow_add]; ring
        _ = 2 ^ Nat.log2 (n / d) * d := by congr 2; omega
        _ ≤ n / d * d := Nat.mul_le_mul_right _ h2
        _ ≤ n := Nat.div_mul_le_self n d

/-- The rounded pattern stands for the rounded significand in its unit. -/
theorem magBits_roundRaw {n d : Nat} (hd : 0 < d) :
    magBits (roundRaw n d) =
      nearestEven n (d * 2 ^ (Nat.log2 (n / d) - 23)) * 2 ^ (Nat.log2 (n / d) - 23) := by
  have hD : 0 < d * 2 ^ (Nat.log2 (n / d) - 23) := by positivity
  obtain ⟨h1, h2⟩ := shift_bounds (n := n) hd
  exact magBits_significand (nearestEven_le hD h1.le) (h2.imp id (le_nearestEven hD))

/-- Rounding answers a nearest magnitude. -/
theorem roundRaw_nearest {n d : Nat} (hd : 0 < d) (m : Nat) :
    |((magBits (roundRaw n d) * d : Nat) : Int) - n| ≤ |((magBits m * d : Nat) : Int) - n| := by
  have hD : 0 < d * 2 ^ (Nat.log2 (n / d) - 23) := by positivity
  obtain ⟨-, h2⟩ := shift_bounds (n := n) hd
  -- the multiples of the unit
  have hmul : ∀ j, |((magBits (roundRaw n d) * d : Nat) : Int) - n| ≤
      |((j * 2 ^ (Nat.log2 (n / d) - 23) * d : Nat) : Int) - n| := by
    intro j
    have := nearestEven_nearest (n := n) hD j
    rwa [magBits_roundRaw hd, show nearestEven n (d * 2 ^ (Nat.log2 (n / d) - 23)) *
      2 ^ (Nat.log2 (n / d) - 23) * d = nearestEven n (d * 2 ^ (Nat.log2 (n / d) - 23)) *
      (d * 2 ^ (Nat.log2 (n / d) - 23)) by ring, show j * 2 ^ (Nat.log2 (n / d) - 23) * d =
      j * (d * 2 ^ (Nat.log2 (n / d) - 23)) by ring]
  by_cases hm : (Nat.log2 (n / d) - 23 + 1) * 2 ^ 23 ≤ m
  · obtain ⟨j, hj⟩ := dvd_magBits hm
    rw [hj, mul_comm (2 ^ _) j]; exact hmul j
  · rcases h2 with h2 | h2
    · have := hmul (magBits m)
      rwa [h2, pow_zero, mul_one] at this
    · -- a magnitude below the unit's binade is farther away than the binade's first one
      have hlow : magBits m ≤ 2 ^ 23 * 2 ^ (Nat.log2 (n / d) - 23) := by
        have h3 := magBits_significand (m := 2 ^ 23) (k := Nat.log2 (n / d) - 23) (by decide) (Or.inr (le_refl _))
        rw [← h3]; exact magBits_le.2 (by omega)
      refine (hmul (2 ^ 23)).trans ?_
      have h4 : magBits m * d ≤ 2 ^ 23 * 2 ^ (Nat.log2 (n / d) - 23) * d := Nat.mul_le_mul_right d hlow
      have h5 : 2 ^ 23 * 2 ^ (Nat.log2 (n / d) - 23) * d ≤ n := by
        calc _ = 2 ^ 23 * (d * 2 ^ (Nat.log2 (n / d) - 23)) := by ring
          _ ≤ n := h2
      rw [abs_of_nonpos (by omega), abs_of_nonpos (by omega)]; omega

/-- A representable bound from above survives rounding. -/
theorem roundRaw_le {n d m : Nat} (hd : 0 < d) (h : n ≤ magBits m * d) : roundRaw n d ≤ m := by
  by_contra hc
  have h1 := roundRaw_nearest (n := n) hd m
  have h2 : magBits m * d < magBits (roundRaw n d) * d :=
    Nat.mul_lt_mul_of_pos_right (magBits_lt.2 (by omega)) hd
  rw [abs_of_nonneg (by omega), abs_of_nonneg (by omega)] at h1
  omega

/-- A representable bound from below survives rounding. -/
theorem le_roundRaw {n d m : Nat} (hd : 0 < d) (h : magBits m * d ≤ n) : m ≤ roundRaw n d := by
  by_contra hc
  have h1 := roundRaw_nearest (n := n) hd m
  have h2 : magBits (roundRaw n d) * d < magBits m * d :=
    Nat.mul_lt_mul_of_pos_right (magBits_lt.2 (by omega)) hd
  rw [abs_of_nonpos (by omega), abs_of_nonpos (by omega)] at h1
  omega

theorem roundMag_le_of {n d m : Nat} (hd : 0 < d) (h : n ≤ magBits m * d) : roundMag n d ≤ m :=
  (Nat.min_le_left _ _).trans (roundRaw_le hd h)

theorem le_roundMag_of {n d m : Nat} (hd : 0 < d) (hm : m ≤ infBits) (h : magBits m * d ≤ n) :
    m ≤ roundMag n d := Nat.le_min.2 ⟨le_roundRaw hd h, hm⟩

/-- A representable magnitude is its own rounding. -/
theorem roundMag_exact {n d m : Nat} (hd : 0 < d) (hm : m ≤ infBits) (h : n = magBits m * d) :
    roundMag n d = m :=
  le_antisymm (roundMag_le_of hd h.le) (le_roundMag_of hd hm h.ge)

/-- A finite rounded magnitude is a nearest one. -/
theorem roundMag_nearest {n d : Nat} (hd : 0 < d) (hf : roundMag n d < infBits) (m : Nat) :
    |((magBits (roundMag n d) * d : Nat) : Int) - n| ≤ |((magBits m * d : Nat) : Int) - n| := by
  have : roundMag n d = roundRaw n d := by rw [roundMag_eq] at hf ⊢; omega
  rw [this]; exact roundRaw_nearest hd m

/-! ## Ties -/

/-- A tie between integers is resolved to the even one. -/
theorem nearestEven_tie {n d j : Nat} (hd : 0 < d) (hj : j ≠ nearestEven n d)
    (h : |((nearestEven n d * d : Nat) : Int) - n| = |((j * d : Nat) : Int) - n|) : nearestEven n d % 2 = 0 := by
  have hn := Nat.div_add_mod n d
  have hr := Nat.mod_lt n hd
  have hn' : (n : Int) = (n / d : Nat) * (d : Int) + (n % d : Nat) := by
    rw [← Nat.cast_mul, ← Nat.cast_add, mul_comm, hn]
  have hjd : ∀ a : Int, |a| * d = |a * d| := fun a => by rw [abs_mul, Nat.abs_cast]
  have hstep : ∀ i : Nat, i ≠ j → (d : Int) ≤ |((j : Int) - i) * d| := fun i hi => by
    rw [← hjd]; nlinarith [Int.one_le_abs (show (j : Int) - i ≠ 0 by omega)]
  unfold nearestEven at h hj ⊢
  rcases Nat.lt_trichotomy (2 * (n % d)) d with h1 | h1 | h1
  · rw [if_pos h1] at h hj ⊢
    have h2 := hstep (n / d) hj.symm
    have h3 : ((j * d : Nat) : Int) - n = ((j : Int) - (n / d : Nat)) * d - (n % d : Nat) := by
      rw [hn']; push_cast; ring
    have h4 : ((n / d * d : Nat) : Int) - n = -((n % d : Nat) : Int) := by rw [hn']; push_cast; ring
    rw [h3, h4, abs_neg, abs_of_nonneg (by positivity)] at h
    have h5 := abs_sub_abs_le_abs_sub (((j : Int) - (n / d : Nat)) * d) ((n % d : Nat) : Int)
    rw [abs_of_nonneg (show (0 : Int) ≤ (n % d : Nat) by positivity)] at h5
    omega
  · rw [if_neg (by omega), if_neg (by omega)]; omega
  · rw [if_neg (by omega), if_pos h1] at h hj ⊢
    have h2 := hstep (n / d + 1) hj.symm
    have h3 : ((j * d : Nat) : Int) - n = ((j : Int) - (n / d + 1 : Nat)) * d + ((d : Int) - (n % d : Nat)) := by
      rw [hn']; push_cast; ring
    have h4 : (((n / d + 1) * d : Nat) : Int) - n = (d : Int) - (n % d : Nat) := by rw [hn']; push_cast; ring
    rw [h3, h4, abs_of_nonneg (by omega)] at h
    have h5 := abs_sub_abs_le_abs_add (((j : Int) - (n / d + 1 : Nat)) * d) ((d : Int) - (n % d : Nat))
    rw [abs_of_nonneg (show (0 : Int) ≤ (d : Int) - (n % d : Nat) by omega)] at h5
    omega

/-- A tie between magnitudes is resolved to the even pattern. -/
theorem roundRaw_tie {n d m : Nat} (hd : 0 < d) (hm : m ≠ roundRaw n d)
    (h : |((magBits (roundRaw n d) * d : Nat) : Int) - n| = |((magBits m * d : Nat) : Int) - n|) :
    roundRaw n d % 2 = 0 := by
  have hD : 0 < d * 2 ^ (Nat.log2 (n / d) - 23) := by positivity
  obtain ⟨-, h2⟩ := shift_bounds (n := n) hd
  have hr := magBits_roundRaw (n := n) hd
  have hrD : magBits (roundRaw n d) * d = nearestEven n (d * 2 ^ (Nat.log2 (n / d) - 23)) *
      (d * 2 ^ (Nat.log2 (n / d) - 23)) := by rw [hr]; ring
  have hpar : nearestEven n (d * 2 ^ (Nat.log2 (n / d) - 23)) % 2 = 0 → roundRaw n d % 2 = 0 := by
    intro h; unfold roundRaw; omega
  have hne : magBits m ≠ magBits (roundRaw n d) := fun he => hm (magBits_strictMono.injective he)
  -- the multiples of the unit
  have hmul : ∀ j, magBits m = j * 2 ^ (Nat.log2 (n / d) - 23) → roundRaw n d % 2 = 0 := by
    intro j hj
    apply hpar
    refine nearestEven_tie hD (j := j) (fun he => hne (by rw [hr, hj, he])) ?_
    rw [← hrD, h, hj]; congr 3; ring
  by_cases hk : (Nat.log2 (n / d) - 23 + 1) * 2 ^ 23 ≤ m
  · obtain ⟨j, hj⟩ := dvd_magBits hk
    exact hmul j (by rw [hj, mul_comm])
  · rcases h2 with h2 | h2
    · exact hmul (magBits m) (by rw [h2, pow_zero, mul_one])
    · exfalso
      have h3 := magBits_significand (m := 2 ^ 23) (k := Nat.log2 (n / d) - 23) (by decide) (Or.inr (le_refl _))
      have hlow : magBits m < 2 ^ 23 * 2 ^ (Nat.log2 (n / d) - 23) := by
        rw [← h3]; exact magBits_lt.2 (by omega)
      have h4 : magBits m * d < 2 ^ 23 * 2 ^ (Nat.log2 (n / d) - 23) * d := Nat.mul_lt_mul_of_pos_right hlow hd
      have h5 : 2 ^ 23 * 2 ^ (Nat.log2 (n / d) - 23) * d ≤ n := by
        calc _ = 2 ^ 23 * (d * 2 ^ (Nat.log2 (n / d) - 23)) := by ring
          _ ≤ n := h2
      have h6 := roundRaw_nearest (n := n) hd (2 ^ 23 + (Nat.log2 (n / d) - 23) * 2 ^ 23)
      rw [h3, h, abs_of_nonpos (by omega), abs_of_nonpos (by omega)] at h6
      omega

/-- The pattern's low bit is that of its low 31 bits. -/
theorem even_pack {neg : Bool} {m : Nat} (hm : m < 2 ^ 31) (h : m % 2 = 0) : (pack neg m).getLsbD 0 = false := by
  rw [← BitVec.testBit_toNat, toNat_pack hm, Nat.testBit_eq_decide_div_mod_eq]
  cases neg <;> simp <;> omega

/-- The rounded pattern of a signed quotient is the nearest one, even on a tie. -/
theorem nearest_pack {n d : Nat} {v : Int} (neg : Bool) (hd : 0 < d) (hf : roundMag n d < infBits)
    (hv : v = if neg then -(n : Int) else n) : NearestTo (pack neg (roundMag n d)) v d := by
  have hraw : roundMag n d = roundRaw n d := by rw [roundMag_eq] at hf ⊢; omega
  have h31 := roundMag_lt_31 n d
  intro w _
  -- the sign of the result, taken out of both distances
  obtain ⟨a, ha, hw⟩ : ∃ a : Int, (a = mag w ∨ a = -(mag w : Int)) ∧ scaled w = if neg then -a else a := by
    unfold scaled; cases neg <;> cases sgn w <;> simp
  have e1 : |scaled (pack neg (roundMag n d)) * d - v| = |((magBits (roundRaw n d) * d : Nat) : Int) - n| := by
    rw [scaled_pack h31, hv, hraw]; cases neg
    · push_cast; rfl
    · rw [← abs_neg]; push_cast; congr 1; simp; ring
  have e2 : |scaled w * d - v| = |a * d - n| := by
    rw [hw, hv]; cases neg
    · rfl
    · rw [← abs_neg]; congr 1; simp; ring
  have e3 : scaled w = scaled (pack neg (roundMag n d)) ↔ a = magBits (roundRaw n d) := by
    rw [hw, scaled_pack h31, hraw]; cases neg <;> simp
  rw [e1, e2, e3, hraw]
  have heven : ∀ m, |((magBits (roundRaw n d) * d : Nat) : Int) - n| = |((magBits m * d : Nat) : Int) - n| →
      magBits m = magBits (roundRaw n d) ∨ (pack neg (roundRaw n d)).getLsbD 0 = false := by
    intro m h
    by_cases hm : m = roundRaw n d
    · exact Or.inl (by rw [hm])
    · exact Or.inr (even_pack (hraw ▸ h31) (roundRaw_tie hd hm h))
  have hsame : ∀ m, a = (magBits m : Int) → |((magBits (roundRaw n d) * d : Nat) : Int) - n| ≤ |a * d - n| ∧
      (|((magBits (roundRaw n d) * d : Nat) : Int) - n| = |a * d - n| →
        a = magBits (roundRaw n d) ∨ (pack neg (roundRaw n d)).getLsbD 0 = false) := by
    intro m hm
    rw [hm]
    exact ⟨by exact_mod_cast roundRaw_nearest hd m, fun h => by exact_mod_cast heven m (by exact_mod_cast h)⟩
  rcases ha with ha | ha
  · exact hsame (low31 w) (by rw [ha, mag_eq])
  · by_cases h0 : mag w = 0
    · exact hsame 0 (by rw [ha, h0]; rfl)
    · have h1 := roundRaw_nearest (n := n) hd 0
      have h2 : |((magBits 0 * d : Nat) : Int) - n| = n := by
        rw [show magBits 0 = 0 from rfl, Nat.zero_mul]; simp
      have h3 : |a * d - n| = (mag w : Int) * d + n := by
        rw [ha, ← abs_neg, abs_of_nonneg (by have : (0 : Int) ≤ (mag w : Int) * d := by positivity
                                             linarith)]; ring
      have h4 : (0 : Int) < (mag w : Int) * d := by positivity
      rw [h2] at h1
      exact ⟨by omega, fun h => by omega⟩

/-! ## Results that are not below zero -/

/-! ## Overflow -/

/-- Below the middle of two neighbouring patterns the lower one is not passed. -/
theorem roundRaw_le_of_half {n d m : Nat} (hd : 0 < d) (h : 2 * n < magBits m * d + magBits (m + 1) * d) :
    roundRaw n d ≤ m := by
  by_cases hn : n ≤ magBits m * d
  · exact roundRaw_le hd hn
  by_contra hc
  have h1 := roundRaw_nearest (n := n) hd m
  have h2 : magBits (m + 1) * d ≤ magBits (roundRaw n d) * d :=
    Nat.mul_le_mul_right d (magBits_le.2 (Nat.lt_of_not_le hc))
  rw [abs_of_nonneg (by omega), abs_of_nonpos (by omega)] at h1
  omega

/-- From the middle on the lower one is passed, when it is odd. -/
theorem lt_roundRaw_of_half {n d m : Nat} (hd : 0 < d) (hm : m % 2 = 1)
    (h : magBits m * d + magBits (m + 1) * d ≤ 2 * n) : m < roundRaw n d := by
  by_contra hc
  have h1 := roundRaw_nearest (n := n) hd (m + 1)
  have h2 : magBits (roundRaw n d) * d ≤ magBits m * d :=
    Nat.mul_le_mul_right d (magBits_le.2 (Nat.le_of_not_lt hc))
  have h3 : magBits m * d < magBits (m + 1) * d :=
    Nat.mul_lt_mul_of_pos_right (magBits_lt.2 (Nat.lt_succ_self m)) hd
  rw [abs_of_nonpos (by omega)] at h1
  by_cases hn : magBits (m + 1) * d ≤ n
  · rw [abs_of_nonpos (by omega)] at h1; omega
  · rw [abs_of_nonneg (by omega)] at h1
    have h5 : roundRaw n d = m :=
      magBits_strictMono.injective (Nat.eq_of_mul_eq_mul_right hd (by omega))
    have h6 := roundRaw_tie (n := n) (m := m + 1) hd (by omega)
      (by rw [h5, abs_of_nonpos (by omega), abs_of_nonneg (by omega)]; omega)
    rw [h5] at h6; omega

/-- The magnitude halfway between the largest finite pattern and an infinity's. -/
theorem overflow_half (d : Nat) : 2 * ((2 ^ 128 - 2 ^ 103) * 2 ^ 149 * d) =
    magBits (infBits - 1) * d + magBits (infBits - 1 + 1) * d := by
  rw [← Nat.add_mul, ← Nat.mul_assoc]; congr 1

/-- Below it the result is finite. -/
theorem roundMag_lt {n d : Nat} (hd : 0 < d) (h : n < (2 ^ 128 - 2 ^ 103) * 2 ^ 149 * d) : roundMag n d < infBits :=
  lt_of_le_of_lt ((Nat.min_le_left _ _).trans (roundRaw_le_of_half hd (m := infBits - 1)
    (by rw [← overflow_half]; exact Nat.mul_lt_mul_of_pos_left h (by decide)))) (by decide)

/-- From it on the result is an infinity: the tie goes to the even pattern. -/
theorem roundMag_overflow {n d : Nat} (hd : 0 < d) (h : (2 ^ 128 - 2 ^ 103) * 2 ^ 149 * d ≤ n) :
    roundMag n d = infBits :=
  Nat.min_eq_right (lt_roundRaw_of_half hd (m := infBits - 1) (by decide)
    (by rw [← overflow_half]; exact Nat.mul_le_mul_left 2 h))

/-- A packed rounded magnitude is the value rounded once. -/
theorem roundsOnce_pack {n d : Nat} {v : Int} (neg : Bool) (hd : 0 < d) (hv : v = if neg then -(n : Int) else n) :
    RoundsOnce (pack neg (roundMag n d)) v d neg := by
  have ha : |v| = n := by rw [hv]; cases neg <;> simp
  have hc : ((2 : Int) ^ 128 - 2 ^ 103) * 2 ^ 149 = (((2 ^ 128 - 2 ^ 103) * 2 ^ 149 : Nat) : Int) := by decide
  rw [RoundsOnce, ha, Nat.abs_cast, hc, ← Nat.cast_mul, Nat.cast_lt, Nat.cast_le]
  refine ⟨fun h => ?_, fun h => ?_⟩
  · have hf := roundMag_lt hd h
    exact ⟨isFinite_pack hf, nearest_pack neg hd hf hv⟩
  · rw [roundMag_overflow hd h]; cases neg <;> decide

/-- The quotient of the negated pair is the same. -/
theorem RoundsOnce.neg {r : F32} {v d : Int} {b : Bool} (h : RoundsOnce r v d b) : RoundsOnce r (-v) (-d) b := by
  have e : ∀ z : Int, |z * -d - -v| = |z * d - v| := fun z => by rw [← abs_neg]; congr 1; ring
  simpa only [RoundsOnce, NearestTo, abs_neg, e] using h

theorem magBits_zero : magBits 0 = 0 := rfl

/-- What a pattern that is not below zero is: a positive pattern, or a zero of either sign. -/
theorem scaled_pack_nonneg {b : Bool} {m : Nat} (h : m < 2 ^ 31) (hb : b = true → m = 0) :
    scaled (pack b m) = magBits m := by
  rw [scaled_pack h]
  cases b
  · rfl
  · rw [hb rfl]; rfl

theorem scaled_le_mag (x : F32) : scaled x ≤ mag x := by
  unfold scaled; split <;> omega

/-- A value between two finite values that are not below zero is finite. -/
theorem finite_of_range {x h : F32} (hh : isFinite h = true) (h0 : 0 ≤ scaled x)
    (h1 : scaled x ≤ scaled h) : isFinite x = true := by
  have hm : mag x ≤ mag h := by
    have := scaled_natAbs x; have := scaled_le_mag h; omega
  rw [mag_eq, mag_eq, magBits_le] at hm
  rw [isFinite_iff] at hh ⊢; omega

theorem fle_iff (x y : F32) : fle x y = true ↔ isNaN x = false ∧ isNaN y = false ∧ scaled x ≤ scaled y := by
  simp [fle, and_assoc]

theorem flt_iff (x y : F32) : flt x y = true ↔ isNaN x = false ∧ isNaN y = false ∧ scaled x < scaled y := by
  simp [flt, and_assoc]

/-- A sum that is not below zero, with representable bounds. -/
theorem fadd_range {nan x y : F32} {lo hi : Nat} (hx : isFinite x = true) (hy : isFinite y = true)
    (hhi : hi < infBits) (h0 : (magBits lo : Int) ≤ scaled x + scaled y) (h1 : scaled x + scaled y ≤ magBits hi) :
    ∃ b m, fadd nan x y = pack b m ∧ lo ≤ m ∧ m ≤ hi ∧ (b = true → m = 0) := by
  unfold fadd
  rw [not_nan_of_finite hx, not_nan_of_finite hy, not_inf_of_finite hx, not_inf_of_finite hy]
  simp only [Bool.or_self, Bool.false_eq_true, if_false]
  split
  · rename_i hz
    refine ⟨_, 0, rfl, ?_, Nat.zero_le _, fun _ => rfl⟩
    rw [← magBits_le, magBits_zero]; omega
  · have hneg : decide (scaled x + scaled y < 0) = false := by rw [decide_eq_false_iff_not]; omega
    refine ⟨_, _, rfl, ?_, ?_, fun h => ?_⟩
    · exact le_roundMag_of Nat.one_pos (by
        have : magBits lo ≤ magBits hi := by omega
        rw [magBits_le] at this; omega) (by omega)
    · exact roundMag_le_of Nat.one_pos (by omega)
    · rw [hneg] at h; cases h

/-- A product of two values that are not below zero, with representable bounds. -/
theorem fmul_range {nan x y : F32} {lo hi : Nat} (hx : isFinite x = true) (hy : isFinite y = true)
    (hx0 : 0 ≤ scaled x) (hy0 : 0 ≤ scaled y) (hhi : hi < infBits)
    (h0 : (magBits lo : Int) * 2 ^ 149 ≤ scaled x * scaled y) (h1 : scaled x * scaled y ≤ (magBits hi : Int) * 2 ^ 149) :
    ∃ b m, fmul nan x y = pack b m ∧ lo ≤ m ∧ m ≤ hi ∧ (b = true → m = 0) := by
  have hm : scaled x * scaled y = ((mag x * mag y : Nat) : Int) := by
    rw [← scaled_natAbs x, ← scaled_natAbs y, Nat.cast_mul, Int.natAbs_of_nonneg hx0, Int.natAbs_of_nonneg hy0]
  rw [hm] at h0 h1
  have h0' : magBits lo * 2 ^ 149 ≤ mag x * mag y := by exact_mod_cast h0
  have h1' : mag x * mag y ≤ magBits hi * 2 ^ 149 := by exact_mod_cast h1
  have hlohi : lo ≤ hi := magBits_le.1 (Nat.le_of_mul_le_mul_right (h0'.trans h1') (by positivity))
  unfold fmul
  rw [not_nan_of_finite hx, not_nan_of_finite hy, not_inf_of_finite hx, not_inf_of_finite hy]
  simp only [Bool.or_self, Bool.false_eq_true, if_false]
  refine ⟨_, _, rfl, le_roundMag_of (by positivity) (by omega) h0', roundMag_le_of (by positivity) h1', fun h => ?_⟩
  have hz : mag x * mag y = 0 := by
    have key : ∀ z : F32, 0 ≤ scaled z → sgn z = true → mag z = 0 := by
      intro z hz hs; simp only [scaled, hs, if_true] at hz; omega
    cases hsx : sgn x
    · have hsy : sgn y = true := by rw [hsx] at h; simpa using h
      rw [key y hy0 hsy, Nat.mul_zero]
    · rw [key x hx0 hsx, Nat.zero_mul]
  rw [hz]
  exact roundMag_exact (by positivity) (Nat.zero_le _) (by rw [magBits_zero, Nat.zero_mul])

/-- A quotient of a value that is not below zero by one above zero, with representable bounds. -/
theorem fdiv_range {nan x y : F32} {lo hi : Nat} (hx : isFinite x = true) (hy : isFinite y = true)
    (hx0 : 0 ≤ scaled x) (hy0 : 0 < scaled y) (hhi : hi < infBits)
    (h0 : (magBits lo : Int) * scaled y ≤ scaled x * 2 ^ 149) (h1 : scaled x * 2 ^ 149 ≤ (magBits hi : Int) * scaled y) :
    ∃ b m, fdiv nan x y = pack b m ∧ lo ≤ m ∧ m ≤ hi ∧ (b = true → m = 0) := by
  have hxm : scaled x = mag x := by rw [← scaled_natAbs x, Int.natAbs_of_nonneg hx0]
  have hym : scaled y = mag y := by rw [← scaled_natAbs y, Int.natAbs_of_nonneg hy0.le]
  have hy1 : 0 < mag y := by omega
  rw [hxm, hym] at h0 h1
  have h0' : magBits lo * mag y ≤ mag x * 2 ^ 149 := by exact_mod_cast h0
  have h1' : mag x * 2 ^ 149 ≤ magBits hi * mag y := by exact_mod_cast h1
  have hlohi : lo ≤ hi := magBits_le.1 (Nat.le_of_mul_le_mul_right (h0'.trans h1') hy1)
  have hyz : isZero y = false := by
    rw [← Bool.not_eq_true, isZero_iff]; intro h
    rw [mag_eq, h, magBits_zero] at hy1; omega
  unfold fdiv
  rw [not_nan_of_finite hx, not_nan_of_finite hy, not_inf_of_finite hx, not_inf_of_finite hy, hyz]
  simp only [Bool.or_self, Bool.false_eq_true, if_false]
  refine ⟨_, _, rfl, le_roundMag_of hy1 (by omega) h0', roundMag_le_of hy1 h1', fun h => ?_⟩
  have hsy : sgn y = false := by
    rw [← Bool.not_eq_true]; intro hs; simp only [scaled, hs, if_true] at hy0; omega
  have hsx : sgn x = true := by rw [hsy] at h; simpa using h
  have hz : mag x = 0 := by simp only [scaled, hsx, if_true] at hx0; omega
  rw [hz]
  exact roundMag_exact hy1 (Nat.zero_le _) (by rw [magBits_zero, Nat.zero_mul, Nat.zero_mul])

end Sys2Proof.Laws
end

