-- ==== Sys2Proof/Laws/State.lean ====
section
/-! SUPPORT. What each named update of the state does to each field, so that no later proof unfolds a record update. -/

namespace Sys2Proof.Laws

open Sys2Proof.Machine

/-! ## State.bump -/

@[simp] theorem bump_cfg (s : State) : s.bump.cfg = s.cfg := rfl
@[simp] theorem bump_pq (s : State) : s.bump.pq = s.pq := rfl
@[simp] theorem bump_wr (s : State) : s.bump.wr = s.wr := rfl
@[simp] theorem bump_rd (s : State) : s.bump.rd = s.rd := rfl
@[simp] theorem bump_act (s : State) : s.bump.act = s.act := rfl
@[simp] theorem bump_derived (s : State) : s.bump.derived = s.derived := rfl
@[simp] theorem bump_seed (s : State) : s.bump.seed = s.seed := rfl
@[simp] theorem bump_envPh (s : State) : s.bump.envPh = s.envPh := rfl
@[simp] theorem bump_oscPh (s : State) : s.bump.oscPh = s.oscPh := rfl
@[simp] theorem bump_fmPh (s : State) : s.bump.fmPh = s.fmPh := rfl
@[simp] theorem bump_cnt (s : State) : s.bump.cnt = s.cnt := rfl
@[simp] theorem bump_dl (s : State) : s.bump.dl = s.dl := rfl
@[simp] theorem bump_err (s : State) : s.bump.err = s.err := rfl
@[simp] theorem bump_cOut (s : State) : s.bump.cOut = s.cOut := rfl
@[simp] theorem bump_pOk (s : State) : s.bump.pOk = s.pOk := rfl
@[simp] theorem bump_draws (s : State) : s.bump.draws = s.draws + 1 := rfl
@[simp] theorem bump_unitOut (s : State) : s.bump.unitOut = s.unitOut := rfl
@[simp] theorem bump_inputs (s : State) : s.bump.inputs = s.inputs := rfl

/-! ## State.hand -/

@[simp] theorem hand_cfg (s : State) (r : UnitOut) : (s.hand r).cfg = s.cfg := rfl
@[simp] theorem hand_pq (s : State) (r : UnitOut) : (s.hand r).pq = s.pq := rfl
@[simp] theorem hand_wr (s : State) (r : UnitOut) : (s.hand r).wr = s.wr := rfl
@[simp] theorem hand_rd (s : State) (r : UnitOut) : (s.hand r).rd = s.rd := rfl
@[simp] theorem hand_act (s : State) (r : UnitOut) : (s.hand r).act = s.act := rfl
@[simp] theorem hand_derived (s : State) (r : UnitOut) : (s.hand r).derived = s.derived := rfl
@[simp] theorem hand_seed (s : State) (r : UnitOut) : (s.hand r).seed = s.seed := rfl
@[simp] theorem hand_envPh (s : State) (r : UnitOut) : (s.hand r).envPh = s.envPh := rfl
@[simp] theorem hand_oscPh (s : State) (r : UnitOut) : (s.hand r).oscPh = s.oscPh := rfl
@[simp] theorem hand_fmPh (s : State) (r : UnitOut) : (s.hand r).fmPh = s.fmPh := rfl
@[simp] theorem hand_cnt (s : State) (r : UnitOut) : (s.hand r).cnt = s.cnt := rfl
@[simp] theorem hand_dl (s : State) (r : UnitOut) : (s.hand r).dl = s.dl := rfl
@[simp] theorem hand_err (s : State) (r : UnitOut) : (s.hand r).err = s.err := rfl
@[simp] theorem hand_cOut (s : State) (r : UnitOut) : (s.hand r).cOut = s.cOut := rfl
@[simp] theorem hand_pOk (s : State) (r : UnitOut) : (s.hand r).pOk = s.pOk := rfl
@[simp] theorem hand_draws (s : State) (r : UnitOut) : (s.hand r).draws = s.draws := rfl
@[simp] theorem hand_unitOut (s : State) (r : UnitOut) : (s.hand r).unitOut = r := rfl
@[simp] theorem hand_inputs (s : State) (r : UnitOut) : (s.hand r).inputs = s.inputs := rfl

/-! ## State.withInputs -/

@[simp] theorem withInputs_cfg (s : State) (xs : List Input) : (s.withInputs xs).cfg = s.cfg := rfl
@[simp] theorem withInputs_pq (s : State) (xs : List Input) : (s.withInputs xs).pq = s.pq := rfl
@[simp] theorem withInputs_wr (s : State) (xs : List Input) : (s.withInputs xs).wr = s.wr := rfl
@[simp] theorem withInputs_rd (s : State) (xs : List Input) : (s.withInputs xs).rd = s.rd := rfl
@[simp] theorem withInputs_act (s : State) (xs : List Input) : (s.withInputs xs).act = s.act := rfl
@[simp] theorem withInputs_derived (s : State) (xs : List Input) : (s.withInputs xs).derived = s.derived := rfl
@[simp] theorem withInputs_seed (s : State) (xs : List Input) : (s.withInputs xs).seed = s.seed := rfl
@[simp] theorem withInputs_envPh (s : State) (xs : List Input) : (s.withInputs xs).envPh = s.envPh := rfl
@[simp] theorem withInputs_oscPh (s : State) (xs : List Input) : (s.withInputs xs).oscPh = s.oscPh := rfl
@[simp] theorem withInputs_fmPh (s : State) (xs : List Input) : (s.withInputs xs).fmPh = s.fmPh := rfl
@[simp] theorem withInputs_cnt (s : State) (xs : List Input) : (s.withInputs xs).cnt = s.cnt := rfl
@[simp] theorem withInputs_dl (s : State) (xs : List Input) : (s.withInputs xs).dl = s.dl := rfl
@[simp] theorem withInputs_err (s : State) (xs : List Input) : (s.withInputs xs).err = s.err := rfl
@[simp] theorem withInputs_cOut (s : State) (xs : List Input) : (s.withInputs xs).cOut = s.cOut := rfl
@[simp] theorem withInputs_pOk (s : State) (xs : List Input) : (s.withInputs xs).pOk = s.pOk := rfl
@[simp] theorem withInputs_draws (s : State) (xs : List Input) : (s.withInputs xs).draws = s.draws := rfl
@[simp] theorem withInputs_unitOut (s : State) (xs : List Input) : (s.withInputs xs).unitOut = s.unitOut := rfl
@[simp] theorem withInputs_inputs (s : State) (xs : List Input) : (s.withInputs xs).inputs = xs := rfl

/-! ## mapOp -/

@[simp] theorem mapOp_cfg (s : State) : (mapOp s).cfg = s.cfg := rfl
@[simp] theorem mapOp_pq (s : State) : (mapOp s).pq = s.pq := rfl
@[simp] theorem mapOp_wr (s : State) : (mapOp s).wr = s.wr := rfl
@[simp] theorem mapOp_rd (s : State) : (mapOp s).rd = s.rd := rfl
@[simp] theorem mapOp_act (s : State) : (mapOp s).act = s.act := rfl
@[simp] theorem mapOp_derived (s : State) : (mapOp s).derived = mapRegs s.draws s.act s.cfg := rfl
@[simp] theorem mapOp_seed (s : State) : (mapOp s).seed = s.seed := rfl
@[simp] theorem mapOp_envPh (s : State) : (mapOp s).envPh = s.envPh := rfl
@[simp] theorem mapOp_oscPh (s : State) : (mapOp s).oscPh = s.oscPh := rfl
@[simp] theorem mapOp_fmPh (s : State) : (mapOp s).fmPh = s.fmPh := rfl
@[simp] theorem mapOp_cnt (s : State) : (mapOp s).cnt = s.cnt := rfl
@[simp] theorem mapOp_dl (s : State) : (mapOp s).dl = s.dl := rfl
@[simp] theorem mapOp_err (s : State) : (mapOp s).err = s.err := rfl
@[simp] theorem mapOp_cOut (s : State) : (mapOp s).cOut = s.cOut := rfl
@[simp] theorem mapOp_pOk (s : State) : (mapOp s).pOk = s.pOk := rfl
@[simp] theorem mapOp_draws (s : State) : (mapOp s).draws = s.draws + 1 := rfl
@[simp] theorem mapOp_unitOut (s : State) : (mapOp s).unitOut = s.unitOut := rfl
@[simp] theorem mapOp_inputs (s : State) : (mapOp s).inputs = s.inputs := rfl

/-! ## resizeDelay -/

@[simp] theorem resizeDelay_cfg (len : Nat) (s : State) : (resizeDelay len s).cfg = s.cfg := rfl
@[simp] theorem resizeDelay_pq (len : Nat) (s : State) : (resizeDelay len s).pq = s.pq := rfl
@[simp] theorem resizeDelay_wr (len : Nat) (s : State) : (resizeDelay len s).wr = s.wr := rfl
@[simp] theorem resizeDelay_rd (len : Nat) (s : State) : (resizeDelay len s).rd = s.rd := rfl
@[simp] theorem resizeDelay_act (len : Nat) (s : State) : (resizeDelay len s).act = s.act := rfl
@[simp] theorem resizeDelay_derived (len : Nat) (s : State) : (resizeDelay len s).derived = s.derived := rfl
@[simp] theorem resizeDelay_seed (len : Nat) (s : State) : (resizeDelay len s).seed = s.seed := rfl
@[simp] theorem resizeDelay_envPh (len : Nat) (s : State) : (resizeDelay len s).envPh = s.envPh := rfl
@[simp] theorem resizeDelay_oscPh (len : Nat) (s : State) : (resizeDelay len s).oscPh = s.oscPh := rfl
@[simp] theorem resizeDelay_fmPh (len : Nat) (s : State) : (resizeDelay len s).fmPh = s.fmPh := rfl
@[simp] theorem resizeDelay_cnt (len : Nat) (s : State) : (resizeDelay len s).cnt = s.cnt := rfl
@[simp] theorem resizeDelay_dl (len : Nat) (s : State) : (resizeDelay len s).dl = zeros (clampLength len) := rfl
@[simp] theorem resizeDelay_err (len : Nat) (s : State) : (resizeDelay len s).err = s.err := rfl
@[simp] theorem resizeDelay_cOut (len : Nat) (s : State) : (resizeDelay len s).cOut = s.cOut := rfl
@[simp] theorem resizeDelay_pOk (len : Nat) (s : State) : (resizeDelay len s).pOk = s.pOk := rfl
@[simp] theorem resizeDelay_draws (len : Nat) (s : State) : (resizeDelay len s).draws = s.draws := rfl
@[simp] theorem resizeDelay_unitOut (len : Nat) (s : State) : (resizeDelay len s).unitOut = s.unitOut := rfl
@[simp] theorem resizeDelay_inputs (len : Nat) (s : State) : (resizeDelay len s).inputs = s.inputs := rfl

end Sys2Proof.Laws
end

