-- ==== Sys2Proof/Laws/Memory.lean ====
section
/-! SUPPORT. The parameter ring: a read after a write, the canonical form, and the arithmetic of the cursors. -/

namespace Sys2Proof.Laws

open Sys2Proof.Machine

/-! ## Reads after writes -/

@[simp] theorem read_write_same (m : Memory) (i : Nat) (v : Snapshot) :
    Memory.read (Memory.write m i v) i = some v := by
  induction m with
  | nil => simp [Memory.write, Memory.read]
  | cons e m ih =>
    obtain ⟨k, u⟩ := e
    simp only [Memory.write]
    split
    · simp [Memory.read]
    · split
      · simp [Memory.read]
      · simp only [Memory.read]; rw [if_neg (by omega)]; exact ih

theorem read_write_other (m : Memory) {i j : Nat} (v : Snapshot) (h : j ≠ i) :
    Memory.read (Memory.write m i v) j = Memory.read m j := by
  induction m with
  | nil => simp only [Memory.write, Memory.read]; rw [if_neg (Ne.symm h)]
  | cons e m ih =>
    obtain ⟨k, u⟩ := e
    simp only [Memory.write]
    split
    · simp only [Memory.read]; rw [if_neg (Ne.symm h)]
    · split
      · rename_i h2; subst h2; simp only [Memory.read, if_neg (Ne.symm h)]
      · simp only [Memory.read]; split
        · rfl
        · exact ih

/-! ## The canonical form -/

theorem mem_write {m : Memory} {i : Nat} {v : Snapshot} {e : Nat × Snapshot} (h : e ∈ Memory.write m i v) :
    e.1 = i ∨ e ∈ m := by
  induction m with
  | nil => simp only [Memory.write, List.mem_singleton] at h; left; rw [h]
  | cons x m ih =>
    obtain ⟨k, u⟩ := x
    simp only [Memory.write] at h
    split at h
    · rcases List.mem_cons.1 h with h | h
      · left; rw [h]
      · exact Or.inr h
    · split at h
      · rcases List.mem_cons.1 h with h | h
        · left; rw [h]
        · right; exact List.mem_cons_of_mem _ h
      · rcases List.mem_cons.1 h with h | h
        · right; rw [h]; exact List.mem_cons_self
        · exact (ih h).imp id (List.mem_cons_of_mem _)

/-- A write below `CAP` keeps the canonical form. -/
theorem write_wf {m : Memory} {i : Nat} {v : Snapshot} (hi : i < Config.cap) (h : m.wf = true) :
    (m.write i v).wf = true := by
  induction m with
  | nil => simp [Memory.write, Memory.wf, hi]
  | cons e m ih =>
    obtain ⟨k, u⟩ := e
    simp only [Memory.wf, Bool.and_eq_true, decide_eq_true_eq, List.all_eq_true] at h
    obtain ⟨⟨hk, hall⟩, hm⟩ := h
    simp only [Memory.write]
    split
    · rename_i hik
      simp only [Memory.wf, Bool.and_eq_true, decide_eq_true_eq, List.all_eq_true, List.mem_cons, forall_eq_or_imp]
      exact ⟨⟨hi, hik, fun x hx => lt_trans hik (hall x hx)⟩, ⟨hk, hall⟩, hm⟩
    · split
      · rename_i hki
        subst hki
        simp only [Memory.wf, Bool.and_eq_true, decide_eq_true_eq, List.all_eq_true]
        exact ⟨⟨hi, hall⟩, hm⟩
      · simp only [Memory.wf, Bool.and_eq_true, decide_eq_true_eq, List.all_eq_true]
        refine ⟨⟨hk, fun x hx => ?_⟩, ih hm⟩
        rcases mem_write hx with hx | hx
        · omega
        · exact hall x hx

/-! ## Freed entries -/

theorem read_nil (i : Nat) : Memory.read [] i = none := rfl

/-- Freeing an entry keeps the canonical form. -/
theorem erase_wf {m : Memory} (i : Nat) (h : m.wf = true) : (m.erase i).wf = true := by
  induction m with
  | nil => rfl
  | cons e m ih =>
    obtain ⟨k, u⟩ := e
    simp only [Memory.wf, Bool.and_eq_true, decide_eq_true_eq, List.all_eq_true] at h
    obtain ⟨⟨hk, hall⟩, hm⟩ := h
    simp only [Memory.erase, List.filter_cons]
    split
    · simp only [Memory.wf, Bool.and_eq_true, decide_eq_true_eq, List.all_eq_true]
      exact ⟨⟨hk, fun x hx => hall x (List.mem_filter.1 hx).1⟩, ih hm⟩
    · exact ih hm

theorem read_erase_other (m : Memory) {i j : Nat} (h : j ≠ i) : (m.erase i).read j = m.read j := by
  induction m with
  | nil => rfl
  | cons e m ih =>
    obtain ⟨k, u⟩ := e
    simp only [Memory.erase, List.filter_cons] at *
    by_cases hk : k = i
    · simp only [hk, ne_eq, not_true, decide_false, Bool.false_eq_true, if_false, Memory.read, ih]
      rw [if_neg (Ne.symm h)]
    · simp only [hk, ne_eq, not_false_iff, decide_true, if_true, Memory.read, ih]

/-- The entries left are the others. -/
theorem mem_erase {m : Memory} {i : Nat} {e : Nat × Snapshot} (h : e ∈ m.erase i) : e ∈ m ∧ e.1 ≠ i := by
  simpa [Memory.erase] using h

/-- The ring of the reset state is in its canonical form. -/
theorem reset_wf : Memory.wf State.reset.pq = true := rfl

/-! ## The cursors -/

theorem ringIndex_lt (k : Nat) : ringIndex k < Config.cap := Nat.mod_lt _ (by decide)

theorem queueCount_self (w : Nat) : queueCount w w = 0 := by simp [queueCount]

theorem queueCount_lt (wr rd : Nat) : queueCount wr rd < 400 := by
  simp only [queueCount, Config.cap]; omega

theorem queueFull_iff (s : State) : queueFull s = true ↔ queueCount s.wr s.rd = 200 := by
  simp [queueFull, Config.cap]

theorem queueFull_false_iff (s : State) : queueFull s = false ↔ queueCount s.wr s.rd ≠ 200 := by
  rw [← Bool.not_eq_true, queueFull_iff]

/-- An accepted push raises the count by one. -/
theorem queueCount_next {wr rd : Nat} (h : queueCount wr rd < 200) :
    queueCount (cursorNext wr) rd = queueCount wr rd + 1 := by
  simp only [queueCount, cursorNext, Config.cap] at *; omega

/-- The slot a push writes is not one of those held, if the queue is not full. -/
theorem ringIndex_push_ne {wr rd i : Nat} (h : queueCount wr rd < 200) (hi : i < queueCount wr rd) :
    ringIndex (rd + i) ≠ ringIndex wr := by
  simp only [queueCount, ringIndex, Config.cap] at *; omega

/-- The newest entry held is the one before the producer cursor. -/
theorem newestIndex_eq {wr rd : Nat} (h : queueCount wr rd ≠ 0) :
    newestIndex wr = ringIndex (rd + (queueCount wr rd - 1)) := by
  simp only [queueCount, newestIndex, ringIndex, Config.cap] at *; omega

/-- The slot past the entries held is the one the next push writes. -/
theorem ringIndex_count (wr rd : Nat) : ringIndex (rd + queueCount wr rd) = ringIndex wr := by
  simp only [queueCount, ringIndex, Config.cap]; omega

/-- A pop lowers the count by one. -/
theorem queueCount_pop {wr rd : Nat} (h : queueCount wr rd ≠ 0) :
    queueCount wr (cursorNext rd) = queueCount wr rd - 1 := by
  simp only [queueCount, cursorNext, Config.cap] at *; omega

/-- Equal cursors are the empty queue. -/
theorem eq_of_queueCount_zero {wr rd : Nat} (hw : wr < 400) (hr : rd < 400) (h : queueCount wr rd = 0) : wr = rd := by
  simp only [queueCount, Config.cap] at h; omega

end Sys2Proof.Laws
end

