-- ==== Sys2Proof/Laws/Ops.lean ====
section
/-! SUPPORT. For each shared operation, everything it can do, said once. -/

namespace Sys2Proof.Laws

open Sys2Proof.Machine Sys2Proof.Safety
open Host (Outcome)

/-! ## The Parameter Channel -/

theorem drainLatest_empty {s : State} (h : queueCount s.wr s.rd = 0) : drainLatest s = .ok (none, s) := by
  simp [drainLatest, h]

theorem drainLatest_pending {s : State} {p : Snapshot} (h : queueCount s.wr s.rd ≠ 0)
    (hp : s.pq.read (newestIndex s.wr) = some p) : drainLatest s = .ok (some p, { s with pq := [], rd := s.wr }) := by
  simp [drainLatest, h, hp]

/-- Everything `DRAIN_LATEST` can answer. -/
theorem drainLatest_ok {s s' : State} {r : Option Snapshot} (h : drainLatest s = .ok (r, s')) :
    (queueCount s.wr s.rd = 0 ∧ r = none ∧ s' = s) ∨
    ∃ p, queueCount s.wr s.rd ≠ 0 ∧ s.pq.read (newestIndex s.wr) = some p ∧ r = some p ∧
      s' = { s with pq := [], rd := s.wr } := by
  unfold drainLatest at h
  split at h
  · rename_i hc; cases h; exact Or.inl ⟨hc, rfl, rfl⟩
  · rename_i hc
    split at h
    · cases h
    · rename_i p hp; cases h; exact Or.inr ⟨p, hc, hp, rfl, rfl⟩

/-- In a state that meets the invariants a pending snapshot can be read. -/
theorem newest_written {s : State} (hi : Inv s) (h : queueCount s.wr s.rd ≠ 0) :
    ∃ p, s.pq.read (newestIndex s.wr) = some p := by
  rw [newestIndex_eq h]
  exact Option.isSome_iff_exists.1 (hi.liveWritten _ (by omega))

/-- Everything `PUSH` can do. -/
theorem execPush_cases (p : Snapshot) (s : State) :
    (queueCount s.wr s.rd = 200 ∧ execPush p s = .next { s with pOk := false }) ∨
    (queueCount s.wr s.rd ≠ 200 ∧ execPush p s =
      .next { s with pq := s.pq.write (ringIndex s.wr) p, wr := cursorNext s.wr, pOk := true }) := by
  unfold execPush
  by_cases h : queueFull s = true
  · exact Or.inl ⟨(queueFull_iff s).1 h, if_pos h⟩
  · exact Or.inr ⟨fun hc => h ((queueFull_iff s).2 hc), if_neg h⟩

/-! ## The invariants -/

/-- The invariants read only these fields. -/
theorem inv_congr {s t : State} (hi : Inv s) (h1 : t.cfg = s.cfg) (h2 : t.wr = s.wr) (h3 : t.rd = s.rd) (h4 : t.pq = s.pq)
    (h5 : ∃ n, t.derived = mapRegs n t.act t.cfg) (h6 : t.seed ≠ 0#32) (h7 : 1 ≤ t.dl.length)
    (h8 : t.dl.length ≤ Config.delayMax) : Inv t :=
  ⟨h1 ▸ hi.cfgLegal, h2 ▸ hi.wrRange, h3 ▸ hi.rdRange, by rw [h2, h3]; exact hi.countLe, h4 ▸ hi.ringWf,
    by rw [h2, h3, h4]; exact hi.liveWritten,
    by rw [h2, h3, h4]; exact hi.heldOnly, h5, h6, h7, h8⟩

/-- Draining keeps them. -/
theorem inv_drained {s : State} (hi : Inv s) : Inv { s with pq := [], rd := s.wr } :=
  ⟨hi.cfgLegal, hi.wrRange, hi.wrRange, by simp [queueCount_self], rfl,
    by intro i h; simp [queueCount_self] at h, by simp, hi.derivedCache, hi.seedNonzero, hi.delayNonempty, hi.delayBounded⟩

/-- With nothing pending the ring lists nothing. -/
theorem pq_eq_nil {s : State} (hi : Inv s) (h : queueCount s.wr s.rd = 0) : s.pq = [] := by
  refine List.eq_nil_iff_forall_not_mem.2 fun e he => ?_
  obtain ⟨i, hlt, -⟩ := hi.heldOnly e he
  omega

/-! ## The entries held -/

/-- The list of entries held is as long as the cursors say. -/
theorem length_held {s : State} (hi : Inv s) : (held s).length = queueCount s.wr s.rd := by
  have h : ∀ n, (∀ i < n, (s.pq.read (ringIndex (s.rd + i))).isSome = true) →
      ((List.range n).filterMap fun i => Memory.read s.pq (ringIndex (s.rd + i))).length = n := by
    intro n
    induction n with
    | zero => intro; rfl
    | succ n ih =>
      intro h
      rw [List.range_succ, List.filterMap_append, List.length_append, ih fun i hi => h i (by omega)]
      obtain ⟨v, hv⟩ := Option.isSome_iff_exists.1 (h n (by omega))
      simp [hv]
  exact h _ hi.liveWritten

/-- Its last entry is the one `DRAIN_LATEST` reads. -/
theorem getLast?_held {s : State} {p} (h : queueCount s.wr s.rd ≠ 0) (hp : s.pq.read (newestIndex s.wr) = some p) :
    (held s).getLast? = some p := by
  obtain ⟨n, hn⟩ := Nat.exists_eq_succ_of_ne_zero h
  rw [newestIndex_eq h, hn] at hp
  simp only [Nat.succ_eq_add_one, Nat.add_sub_cancel] at hp
  simp [held, hn, List.range_succ, List.filterMap_append, hp]

/-- An accepted push appends to it. -/
theorem held_push {s t : State} {p} (hi : Inv s) (hc : queueCount s.wr s.rd ≠ 200)
    (ht : t = { s with pq := s.pq.write (ringIndex s.wr) p, wr := cursorNext s.wr, pOk := true }) :
    held t = held s ++ [p] := by
  have hcl := hi.countLe
  have hlt : queueCount s.wr s.rd < 200 := by simp only [Config.cap] at hcl; omega
  subst ht
  simp only [held, queueCount_next hlt, List.range_succ, List.filterMap_append]
  congr 1
  · apply List.filterMap_congr
    intro i hi
    rw [List.mem_range] at hi
    exact read_write_other _ _ (ringIndex_push_ne hlt hi)
  · simp [ringIndex_count]

/-! ## Lengths -/

theorem f2iSat_le (x : F32) (hi : Nat) : f2iSat x hi ≤ hi := by
  unfold f2iSat
  split
  · exact Nat.zero_le _
  · split
    · exact le_refl _
    · rename_i h
      simp only [Bool.or_eq_true, decide_eq_true_eq, not_or] at h
      exact Nat.div_le_of_le_mul (by rw [Nat.mul_comm]; omega)

theorem clampLength_pos (len : Nat) : 1 ≤ clampLength len := by
  unfold clampLength Config.delayMax; omega

theorem clampLength_le (len : Nat) : clampLength len ≤ Config.delayMax := Nat.min_le_right _ _

/-- A length already in range is not clamped. -/
theorem clampLength_eq {len : Nat} (h1 : 1 ≤ len) (h2 : len ≤ Config.delayMax) : clampLength len = len := by
  unfold clampLength; omega

theorem length_zeros (n : Nat) : (zeros n).length = n := List.length_replicate

/-- A derived delay length is in range, whatever the operand. -/
theorem delayLength_bounds (raw : F32) : 1 ≤ delayLength raw ∧ delayLength raw ≤ Config.delayMax := by
  have := f2iSat_le (fround raw) Config.delayMax
  unfold delayLength Config.delayMax at *; omega

/-- A derived period is at least one sample. -/
theorem periodSamples_pos (n : Nat) (period : F32) : 1 ≤ periodSamples n period := Nat.le_max_left _ _

/-! ## The Delay Line -/

/-- Everything `DL_TICK` can answer. -/
theorem dlTick_ok {x y : F32} {s s' : State} (h : dlTick x s = .ok (y, s')) :
    ∃ rest, s.dl = y :: rest ∧ s' = { s with dl := rest ++ [x] } := by
  unfold dlTick shiftDelay at h
  cases hd : s.dl with
  | nil => simp [hd] at h
  | cons a rest =>
    simp only [hd, Except.ok.injEq, Prod.mk.injEq] at h
    exact ⟨rest, by rw [h.1], h.2.symm⟩

/-! ## The gates and the output stage -/

/-- Everything `CNT_GATE` can answer. -/
theorem cntGate_ok {g : Bool} {s s' : State} (h : cntGate s = .ok (g, s')) :
    s.derived.psamp ≠ 0 ∧ g = counterGate s.draws s.cnt s.derived.psamp s.derived.duty ∧ s' = s.bump := by
  unfold cntGate at h
  split at h
  · cases h
  · rename_i hp; cases h; exact ⟨hp, rfl, rfl⟩

/-- Everything `MIX_OUT` can answer. -/
theorem mixOut_ok {mixed osc out : F32} {eg cg : Bool} {s s' : State}
    (h : mixOut mixed eg osc cg s = .ok (out, s')) :
    ∃ mode, cfgMode s.cfg = some mode ∧ s' = s.bump ∧
      out = fmul (Config.nanAt s.draws .gainMul) (premix s.draws mode (gated eg mixed) (gated cg osc)) s.derived.og := by
  unfold mixOut at h
  split at h
  · cases h
  · rename_i mode hm; cases h; exact ⟨mode, hm, rfl, rfl⟩

/-! ## TICK -/

/-- What a completed `TICK` was given, and which fields it wrote. -/
theorem execTick_frame {s t : State} (h : execTick s = .next t) :
    ∃ old rest, s.dl = old :: rest ∧ s.derived.psamp ≠ 0 ∧ (cfgMode s.cfg).isSome = true ∧
      t = { s with
        seed := prngStep s.seed
        dl := rest ++ [combMix s.draws (prngOut (prngStep s.seed)) s.derived.depth s.derived.fbg old]
        envPh := t.envPh
        fmPh := t.fmPh
        oscPh := t.oscPh
        cnt := s.cnt + 1#32
        cOut := t.cOut
        draws := s.draws + 5 } := by
  simp only [execTick, noiseStep] at h
  split at h
  · cases h
  · rename_i old rest hd
    split at h
    · cases h
    · rename_i y s2 hdl
      obtain ⟨rest', hr, rfl⟩ := dlTick_ok hdl
      split at h
      · cases h
      · rename_i cg s5 hcg
        obtain ⟨hp, -, rfl⟩ := cntGate_ok hcg
        split at h
        · cases h
        · rename_i out s6 hmix
          obtain ⟨mode, hm, rfl, -⟩ := mixOut_ok hmix
          cases h
          simp only [bump_dl] at hr
          rw [hd] at hr
          cases hr
          exact ⟨old, rest, hd, hp, Option.isSome_iff_exists.2 ⟨mode, hm⟩, rfl⟩

/-- A `TICK` completes on a non-empty delay line, a period of at least one sample and a mode that is not reserved. -/
theorem execTick_completes {s : State} (hd : s.dl ≠ []) (hp : s.derived.psamp ≠ 0)
    (hm : (cfgMode s.cfg).isSome = true) : ∃ t, execTick s = .next t := by
  obtain ⟨old, rest, hd⟩ := List.exists_cons_of_ne_nil hd
  obtain ⟨mode, hm⟩ := Option.isSome_iff_exists.1 hm
  simp only [execTick, noiseStep, hd, dlTick, bump_dl, shiftDelay, envStep, oscStep, cntGate, bump_derived, hp,
    if_false, mixOut, bump_cfg, hm]
  exact ⟨_, rfl⟩

/-- `TICK` as the chain of its unit operations, one named state after each, so that no proof has to look at a state
written out as five nested updates. -/
theorem execTick_eq {s : State} {old rest mode} (hd : s.dl = old :: rest) (hp : s.derived.psamp ≠ 0)
    (hm : cfgMode s.cfg = some mode) (mx : F32)
    (hmx : combMix s.draws (prngOut (prngStep s.seed)) s.derived.depth s.derived.fbg old = mx)
    (s1 s2 s3 s4 s5 : State) (cg : Bool) (out : F32)
    (h1 : ({ s with seed := prngStep s.seed} : State) = s1)
    (h2 : ({ s1.bump with dl := rest ++ [mx] } : State) = s2)
    (h3 : (envStep s2).2 = s3)
    (h4 : (oscStep s3).2 = s4)
    (h5 : s4.bump = s5)
    (hcg : counterGate s4.draws s4.cnt s4.derived.psamp s4.derived.duty = cg)
    (hout : fmul (Config.nanAt s5.draws .gainMul)
      (premix s5.draws mode (gated (envStep s2).1 mx) (gated cg (oscStep s3).1)) s5.derived.og = out) :
    execTick s = .next { s5.bump with cnt := s5.cnt + 1#32, cOut := out } := by
  have hp4 : s4.derived.psamp ≠ 0 := by rw [← h4, ← h3, ← h2, ← h1]; exact hp
  have hm5 : cfgMode s5.cfg = some mode := by rw [← h5, ← h4, ← h3, ← h2, ← h1]; exact hm
  have e1 : s1.dl = old :: rest := by rw [← h1]; exact hd
  have emx : combMix s1.draws (prngOut (prngStep s.seed)) s1.derived.depth s1.derived.fbg old = mx := by
    rw [← h1]; exact hmx
  simp only [execTick, noiseStep, Config.generator_step, Config.generator_out, h1, e1, dlTick, bump_dl, shiftDelay, emx, h2]
  simp only [h3, h4, cntGate, hp4, if_false, hcg, h5, mixOut, hm5, hout]
  rfl

/-! ## FRAME -/

/-- Everything `FRAME` can do. -/
theorem execFrame_cases {s t : State} (h : execFrame s = .next t) :
    (queueCount s.wr s.rd = 0 ∧ t = s) ∨
    ∃ p, queueCount s.wr s.rd ≠ 0 ∧ s.pq.read (newestIndex s.wr) = some p ∧
      t = resizeIfChanged (mapOp { s with pq := [], rd := s.wr, act := p }) := by
  unfold execFrame at h
  split at h
  · cases h
  · rename_i s1 hd
    cases h
    rcases drainLatest_ok hd with ⟨hc, -, rfl⟩ | ⟨p, -, -, hn, -⟩
    · exact Or.inl ⟨hc, rfl⟩
    · cases hn
  · rename_i p s1 hd
    cases h
    rcases drainLatest_ok hd with ⟨-, hn, -⟩ | ⟨q, hc, hq, hn, rfl⟩
    · cases hn
    · cases hn; exact Or.inr ⟨p, hc, hq, rfl⟩

/-- The resize at the end of `FRAME` touches the delay line alone. -/
theorem resizeIfChanged_eq (s : State) : resizeIfChanged s = { s with dl := (resizeIfChanged s).dl } := by
  unfold resizeIfChanged; split <;> rfl

/-- After it the length is the derived one, if that is in range. -/
theorem length_resizeIfChanged {s : State} (h1 : 1 ≤ s.derived.dlLen) (h2 : s.derived.dlLen ≤ Config.delayMax) :
    (resizeIfChanged s).dl.length = s.derived.dlLen := by
  unfold resizeIfChanged
  split
  · rw [resizeDelay_dl, length_zeros, clampLength_eq h1 h2]
  · rename_i h; simpa using Eq.symm (not_not.1 h)

/-! ## Reset -/

/-- Everything a reset can do. -/
theorem resetOp_cases (cfgIn : BitVec 8) (init : BitVec 192) (seedIn : BitVec 32) (s : State) :
    (legalCfg cfgIn = false ∧ resetOp cfgIn init seedIn s = .refused .badConfig) ∨
    (legalCfg cfgIn = true ∧ ∃ t, resetOp cfgIn init seedIn s = .next t ∧
      t = { s with
        cfg := cfgIn, pq := [], wr := 0, rd := 0, act := Snapshot.ofWord init
        derived := mapRegs s.draws (Snapshot.ofWord init) cfgIn
        seed := seedOf seedIn, envPh := fZero, oscPh := fZero, fmPh := fZero, cnt := 0#32
        dl := zeros (clampLength (mapRegs s.draws (Snapshot.ofWord init) cfgIn).dlLen)
        err := 0b00#2, cOut := fZero, pOk := false, draws := s.draws + 1, unitOut := .nothing }) := by
  unfold resetOp
  cases h : legalCfg cfgIn
  · exact Or.inl ⟨rfl, rfl⟩
  · exact Or.inr ⟨rfl, _, rfl, rfl⟩

/-- A seed loaded at reset is not zero. -/
theorem seedOf_ne_zero (seedIn : BitVec 32) : seedOf seedIn ≠ 0#32 := by
  unfold seedOf; split
  · decide
  · assumption

end Sys2Proof.Laws
end

