-- ==== Sys2Proof/Laws/Words.lean ====
section
/-! SUPPORT. Slices of concatenated words, and the snapshot word both ways. -/

namespace Sys2Proof.Laws

/-- A slice that lies in the low part. -/
theorem slice_low {m n : Nat} (a : BitVec m) (b : BitVec n) {s len : Nat} (h : s + len ≤ n) :
    (a ++ b).extractLsb' s len = b.extractLsb' s len := by
  ext i hi
  simp only [BitVec.getElem_extractLsb', BitVec.getLsbD_append]
  rw [if_pos (by omega)]

/-- A slice that lies in the high part. -/
theorem slice_high {m n : Nat} (a : BitVec m) (b : BitVec n) {s len : Nat} (h : n ≤ s) :
    (a ++ b).extractLsb' s len = a.extractLsb' (s - n) len := by
  ext i hi
  simp only [BitVec.getElem_extractLsb', BitVec.getLsbD_append]
  rw [if_neg (by omega), Nat.sub_add_comm h]

theorem slice_all {n : Nat} (a : BitVec n) : a.extractLsb' 0 n = a := by
  ext i hi; simp

/-- The fields of a concatenated snapshot word are the fields. -/
theorem ofWord_toWord (p : Snapshot) : Snapshot.ofWord p.toWord = p := by
  obtain ⟨a, b, c, d, e, f⟩ := p
  simp only [Snapshot.ofWord, Snapshot.toWord, Snapshot.mk.injEq]
  refine ⟨?_, ?_, ?_, ?_, ?_, ?_⟩
  · exact (slice_low _ a (by decide)).trans (slice_all a)
  · exact (slice_high _ a (by decide)).trans ((slice_low _ b (by decide)).trans (slice_all b))
  · exact (slice_high _ a (by decide)).trans ((slice_high _ b (by decide)).trans
      ((slice_low _ c (by decide)).trans (slice_all c)))
  · exact (slice_high _ a (by decide)).trans ((slice_high _ b (by decide)).trans
      ((slice_high _ c (by decide)).trans ((slice_low _ d (by decide)).trans (slice_all d))))
  · exact (slice_high _ a (by decide)).trans ((slice_high _ b (by decide)).trans
      ((slice_high _ c (by decide)).trans ((slice_high _ d (by decide)).trans
        ((slice_low _ e (by decide)).trans (slice_all e)))))
  · exact (slice_high _ a (by decide)).trans ((slice_high _ b (by decide)).trans
      ((slice_high _ c (by decide)).trans ((slice_high _ d (by decide)).trans
        ((slice_high _ e (by decide)).trans (slice_all f)))))

/-- Joining two neighbouring slices. -/
theorem slice_join {n : Nat} (w : BitVec n) (s k l : Nat) :
    w.extractLsb' (s + k) l ++ w.extractLsb' s k = w.extractLsb' s (l + k) := by
  ext i hi
  simp only [BitVec.getElem_append, BitVec.getElem_extractLsb']
  split
  · rfl
  · congr 1; omega

/-- A snapshot word is the concatenation of its fields. -/
theorem toWord_ofWord (w : BitVec 192) : (Snapshot.ofWord w).toWord = w := by
  simp only [Snapshot.ofWord, Snapshot.toWord]
  have h5 := slice_join w 128 32 32
  have h4 := slice_join w 96 32 64
  have h3 := slice_join w 64 32 96
  have h2 := slice_join w 32 32 128
  have h1 := slice_join w 0 32 160
  exact (congrArg (· ++ _) ((congrArg (· ++ _) ((congrArg (· ++ _) ((congrArg (· ++ _) h5).trans h4)).trans h3)).trans
    h2)).trans (h1.trans (slice_all w))

theorem opP_append (op : BitVec 4) (payload : BitVec 192) : opP (op ++ payload) = op :=
  (slice_high op payload (by decide)).trans (slice_all op)

theorem payloadP_append (op : BitVec 4) (payload : BitVec 192) : payloadP (op ++ payload) = payload :=
  (slice_low op payload (by decide)).trans (slice_all payload)

/-- A port-P word is its two fields. -/
theorem op_payload (w : BitVec 196) : opP w ++ payloadP w = w :=
  (slice_join w 0 192 4).trans (slice_all w)

/-- A record's operand bits, when they fit 32 bits, are those bits. -/
theorem toNat_unitOperands (x : BitVec 32) : (0#34 ++ x : BitVec 66).toNat = x.toNat := by
  rw [BitVec.toNat_append]; simp

theorem slice_unitOperands (x : BitVec 32) : (0#34 ++ x : BitVec 66).extractLsb' 0 32 = x :=
  (slice_low 0#34 x (by decide)).trans (slice_all x)

end Sys2Proof.Laws
end

