-- ==== Sys2Proof/Laws/PerInstr.lean ====
section
/-! SUPPORT. Facts about every instruction as syntax, one lemma per constructor. -/

namespace Sys2Proof.Laws

/-- The word that decodes to an instruction is the instruction's own: no second word means the same. -/
def Reencode.Statement (i : Instr) : Prop := ∀ w : CmdWord, decode w = .ok i → encode i = w

/-- A port-P word that decodes is a `NOP` or a `PUSH` with its own payload. -/
theorem decodeP_ok {w : BitVec 196} {i : Instr} (h : decodeP w = .ok i) :
    (i = .nopP (payloadP w) ∧ w = 0x0#4 ++ payloadP w) ∨
    (i = .push (Snapshot.ofWord (payloadP w)) ∧ w = 0x1#4 ++ payloadP w) := by
  have hw := op_payload w
  unfold decodeP at h
  split at h
  · rename_i h0; rw [h0] at hw; cases h; exact Or.inl ⟨rfl, hw.symm⟩
  · split at h
    · rename_i h1; rw [h1] at hw; cases h; exact Or.inr ⟨rfl, hw.symm⟩
    · cases h

/-- A port-C word that decodes is one of three. -/
theorem decodeC_ok {w : BitVec 4} {i : Instr} (h : decodeC w = .ok i) :
    (i = .nopC ∧ w = 0x0#4) ∨ (i = .frame ∧ w = 0x2#4) ∨ (i = .tick ∧ w = 0x3#4) := by
  unfold decodeC at h
  split at h
  · rename_i h0; cases h; exact Or.inl ⟨rfl, h0⟩
  · split at h
    · rename_i h0; cases h; exact Or.inr (Or.inl ⟨rfl, h0⟩)
    · split at h
      · rename_i h0; cases h; exact Or.inr (Or.inr ⟨rfl, h0⟩)
      · cases h

/-- Operand bits that fit `n` bits, when the check lets them through. -/
theorem withOperands_ok {n : Nat} {code : BitVec 4} {o : BitVec 66} {i j : Instr}
    (h : withOperands n code o i = .ok j) : j = i ∧ o.toNat < 2 ^ n := by
  unfold withOperands at h
  split at h
  · rename_i hn; cases h; exact ⟨rfl, hn⟩
  · cases h

/-- Operand bits below `2^32` are 34 zeros and 32 bits. -/
theorem operands_low {o : BitVec 66} (h : o.toNat < 2 ^ 32) : 0#34 ++ BitVec.ofNat 32 o.toNat = o := by
  apply BitVec.eq_of_toNat_eq
  rw [toNat_unitOperands, BitVec.toNat_ofNat, Nat.mod_eq_of_lt h]

theorem operands_zero {o : BitVec 66} (h : o.toNat < 2 ^ 0) : o = 0#34 ++ 0#32 := by
  apply BitVec.eq_of_toNat_eq
  rw [toNat_unitOperands]; simpa using h

/-- A unit-operation record that decodes is its instruction's own record. -/
theorem decodeU_ok {code : BitVec 4} {o : BitVec 66} {i : Instr} (h : decodeU code o = .ok i) :
    encode i = .unit code o := by
  unfold decodeU at h
  split_ifs at h with h0 h1 h2 h3 h4 h5 h6 h7 h8
  · obtain ⟨rfl, ho⟩ := withOperands_ok h; rw [h0, operands_zero ho]; rfl
  · obtain ⟨rfl, ho⟩ := withOperands_ok h; rw [h1, operands_zero ho]; rfl
  · obtain ⟨rfl, ho⟩ := withOperands_ok h; rw [h2]; simp only [encode, unitWord]; rw [operands_low ho]
  · obtain ⟨rfl, ho⟩ := withOperands_ok h; rw [h3, operands_zero ho]; rfl
  · obtain ⟨rfl, ho⟩ := withOperands_ok h
    rw [h4]; simp only [encode, unitWord]
    have := operands_low ho
    rw [show o.extractLsb' 0 32 = BitVec.ofNat 32 o.toNat by
      apply BitVec.eq_of_toNat_eq; simp [BitVec.extractLsb'_toNat]]
    rw [this]
  · obtain ⟨rfl, ho⟩ := withOperands_ok h; rw [h5, operands_zero ho]; rfl
  · obtain ⟨rfl, ho⟩ := withOperands_ok h; rw [h6, operands_zero ho]; rfl
  · obtain ⟨rfl, ho⟩ := withOperands_ok h; rw [h7, operands_zero ho]; rfl
  · cases h
    rw [h8]; simp only [encode, CmdWord.unit.injEq, true_and]
    have e1 : BitVec.ofBool (o.getLsbD 64) = o.extractLsb' 64 1 := by
      ext i hi; simp only [BitVec.getElem_ofBool, BitVec.getElem_extractLsb']; congr 1; omega
    have e2 : BitVec.ofBool (o.getLsbD 65) = o.extractLsb' 65 1 := by
      ext i hi; simp only [BitVec.getElem_ofBool, BitVec.getElem_extractLsb']; congr 1; omega
    rw [e1, e2]
    exact (congrArg (· ++ _) ((congrArg (· ++ _) (slice_join o 64 1 1)).trans (slice_join o 32 32 2))).trans
      ((slice_join o 0 32 34).trans (slice_all o))

/-- The statement for every instruction at once. -/
theorem encode_of_decode {w : CmdWord} {i : Instr} (h : decode w = .ok i) : encode i = w := by
  cases w with
  | portP w =>
    rcases decodeP_ok h with ⟨rfl, hw⟩ | ⟨rfl, hw⟩
    · simp only [encode, wordP]; rw [← hw]
    · simp only [encode, wordP, toWord_ofWord]; rw [← hw]
  | portC w =>
    rcases decodeC_ok h with ⟨rfl, rfl⟩ | ⟨rfl, rfl⟩ | ⟨rfl, rfl⟩ <;> rfl
  | unit code o => exact decodeU_ok h

theorem Reencode.nopP (payload : BitVec 192) : Reencode.Statement (.nopP payload) := fun _ h => encode_of_decode h
theorem Reencode.nopC : Reencode.Statement .nopC := fun _ h => encode_of_decode h
theorem Reencode.push (p : Snapshot) : Reencode.Statement (.push p) := fun _ h => encode_of_decode h
theorem Reencode.frame : Reencode.Statement .frame := fun _ h => encode_of_decode h
theorem Reencode.tick : Reencode.Statement .tick := fun _ h => encode_of_decode h
theorem Reencode.drainLatest : Reencode.Statement .drainLatest := fun _ h => encode_of_decode h
theorem Reencode.map : Reencode.Statement .map := fun _ h => encode_of_decode h
theorem Reencode.dlResize (len : Nat) : Reencode.Statement (.dlResize len) := fun _ h => encode_of_decode h
theorem Reencode.noiseStep : Reencode.Statement .noiseStep := fun _ h => encode_of_decode h
theorem Reencode.dlTick (x : F32) : Reencode.Statement (.dlTick x) := fun _ h => encode_of_decode h
theorem Reencode.envStep : Reencode.Statement .envStep := fun _ h => encode_of_decode h
theorem Reencode.oscStep : Reencode.Statement .oscStep := fun _ h => encode_of_decode h
theorem Reencode.cntGate : Reencode.Statement .cntGate := fun _ h => encode_of_decode h
theorem Reencode.mixOut (mixed : F32) (eg : Bool) (osc : F32) (cg : Bool) :
    Reencode.Statement (.mixOut mixed eg osc cg) := fun _ h => encode_of_decode h

end Sys2Proof.Laws
end

