-- ==== Sys2Proof/Laws/Runs.lean ====
section
/-! SUPPORT. What one event can do, and that no event reads or writes the events still to come. -/

namespace Sys2Proof.Laws

open Sys2Proof.Machine Sys2Proof.Safety
open Host (Outcome)

/-! ## What a word of a port can be -/

/-- Whatever the state, a word of a port is a `NOP`, an illegal word, a `PUSH`, a `FRAME` or a `TICK`. -/
theorem port_word {x : Input} (hx : isPort x = true) :
    (∀ s, accept x s = .next s) ∨ (∃ e, ∀ s, accept x s = .next { s with err := s.err ||| e }) ∨
    (∃ p, ∀ s, accept x s = exec (.push p) s) ∨ (∀ s, accept x s = exec .frame s) ∨ (∀ s, accept x s = exec .tick s) := by
  cases x with
  | reset => simp [isPort, isPortP, isPortC] at hx
  | cmd w =>
    cases w with
    | unit => simp [isPort, isPortP, isPortC] at hx
    | portP w =>
      simp only [accept, runWord]
      cases hd : decode (.portP w) with
      | ok i =>
        rcases decodeP_ok hd with ⟨rfl, hw⟩ | ⟨rfl, hw⟩
        · exact Or.inl fun s => rfl
        · exact Or.inr (Or.inr (Or.inl ⟨_, fun _ => rfl⟩))
      | error r =>
        simp only [decode, decodeP] at hd
        split at hd
        · cases hd
        · split at hd
          · cases hd
          · cases hd; exact Or.inr (Or.inl ⟨_, fun _ => rfl⟩)
    | portC w =>
      simp only [accept, runWord]
      cases hd : decode (.portC w) with
      | ok i =>
        rcases decodeC_ok hd with ⟨rfl, rfl⟩ | ⟨rfl, rfl⟩ | ⟨rfl, rfl⟩
        · exact Or.inl fun s => rfl
        · exact Or.inr (Or.inr (Or.inr (Or.inl fun _ => rfl)))
        · exact Or.inr (Or.inr (Or.inr (Or.inr fun _ => rfl)))
      | error r =>
        simp only [decode, decodeC] at hd
        split_ifs at hd
        cases hd; exact Or.inr (Or.inl ⟨_, fun _ => rfl⟩)

/-- The same for one word that completes, with the kind of event it is. -/
theorem port_accept_cases {s t : State} {x : Input} (hx : isPort x = true) (h : accept x s = .next t) :
    t = s ∨ (∃ e, t = { s with err := s.err ||| e }) ∨
    (∃ p, isPush x = true ∧ exec (.push p) s = .next t) ∨ (isFrame x = true ∧ exec .frame s = .next t) ∨
    (isTick x = true ∧ exec .tick s = .next t) := by
  cases x with
  | reset => simp [isPort, isPortP, isPortC] at hx
  | cmd w =>
    cases w with
    | unit => simp [isPort, isPortP, isPortC] at hx
    | portP w =>
      simp only [accept, runWord] at h
      cases hd : decode (.portP w) with
      | ok i =>
        rw [hd] at h
        rcases decodeP_ok hd with ⟨rfl, hw⟩ | ⟨rfl, hw⟩
        · cases h; exact Or.inl rfl
        · right; right; left; refine ⟨_, ?_, h⟩
          have : opP w = 1#4 := by rw [hw]; exact opP_append _ _
          simp [isPush, this]
      | error r =>
        rw [hd] at h
        simp only [decode, decodeP] at hd
        split at hd
        · cases hd
        · split at hd
          · cases hd
          · cases hd; cases h; exact Or.inr (Or.inl ⟨_, rfl⟩)
    | portC w =>
      simp only [accept, runWord] at h
      cases hd : decode (.portC w) with
      | ok i =>
        rw [hd] at h
        rcases decodeC_ok hd with ⟨rfl, rfl⟩ | ⟨rfl, rfl⟩ | ⟨rfl, rfl⟩
        · cases h; exact Or.inl rfl
        · exact Or.inr (Or.inr (Or.inr (Or.inl ⟨rfl, h⟩)))
        · exact Or.inr (Or.inr (Or.inr (Or.inr ⟨rfl, h⟩)))
      | error r =>
        rw [hd] at h
        simp only [decode, decodeC] at hd
        split_ifs at hd
        cases hd; cases h; exact Or.inr (Or.inl ⟨_, rfl⟩)

/-- A `TICK` event runs `TICK`. -/
theorem accept_tick {x : Input} (hr : isTick x = true) (s : State) : accept x s = exec .tick s := by
  unfold isTick runs at hr
  cases x with
  | reset => cases hr
  | cmd w =>
    simp only [decide_eq_true_eq] at hr
    show runWord w s = _
    unfold runWord
    cases hd : decode w with
    | error => rw [hd] at hr; cases hr
    | ok i => rw [hd] at hr; cases hr; rfl

/-! ## The events still to come -/

/-- An outcome with other events to come. -/
def putInputs (xs : List Input) : Outcome State Fault Refusal → Outcome State Fault Refusal
  | .next t => .next (t.withInputs xs)
  | .fault f => .fault f
  | .refused r => .refused r

/-- `DRAIN_LATEST` does not look at them. -/
theorem drainLatest_withInputs (s : State) (xs) : drainLatest (s.withInputs xs) = match drainLatest s with
    | .ok (r, t) => .ok (r, t.withInputs xs) | .error e => .error e := by
  by_cases h : queueCount s.wr s.rd = 0
  · rw [drainLatest_empty h, drainLatest_empty (s := s.withInputs xs) h]
  · cases hp : s.pq.read (newestIndex s.wr) with
    | some p => rw [drainLatest_pending h hp, drainLatest_pending (s := s.withInputs xs) h hp]; rfl
    | none => simp [drainLatest, State.withInputs, h, hp]

/-- Nor does the resize at the end of `FRAME`. -/
theorem resizeIfChanged_withInputs (s : State) (xs : List Input) (t : State) (ht : t = s.withInputs xs) :
    resizeIfChanged t = (resizeIfChanged s).withInputs xs := by
  subst ht
  by_cases h : s.derived.dlLen ≠ s.dl.length
  · rw [show resizeIfChanged s = resizeDelay s.derived.dlLen s from if_pos h]; exact if_pos h
  · rw [show resizeIfChanged s = s from if_neg h]; exact if_neg h

/-- No instruction looks at them. -/
theorem exec_withInputs (i : Instr) (s : State) (xs) : exec i (s.withInputs xs) = putInputs xs (exec i s) := by
  cases i with
  | push p =>
    show execPush p _ = putInputs xs (execPush p s)
    rcases execPush_cases p s with ⟨h, h2⟩ | ⟨h, h2⟩ <;>
    rcases execPush_cases p (s.withInputs xs) with ⟨h', h2'⟩ | ⟨h', h2'⟩ <;> rw [h2, h2'] <;>
      first | rfl | exact absurd h h' | exact absurd h' h
  | frame =>
    show execFrame _ = putInputs xs (execFrame s)
    unfold execFrame
    rw [drainLatest_withInputs]
    rcases drainLatest s with e | ⟨_ | p, t⟩
    · rfl
    · rfl
    · exact congrArg Outcome.next (resizeIfChanged_withInputs (mapOp { t with act := p }) xs _ rfl)
  | drainLatest =>
    show execDrainLatest _ = putInputs xs (execDrainLatest s)
    unfold execDrainLatest
    rw [drainLatest_withInputs]
    rcases drainLatest s with e | ⟨r, t⟩ <;> rfl
  | tick =>
    show execTick _ = putInputs xs (execTick s)
    cases hd : s.dl with
    | nil => simp [execTick, noiseStep, hd, State.withInputs, putInputs]
    | cons y r =>
      by_cases hp : s.derived.psamp = 0
      · simp [execTick, noiseStep, hd, State.withInputs, putInputs, dlTick, shiftDelay, envStep, oscStep, cntGate, hp]
      · cases hm : cfgMode s.cfg with
        | none => simp [execTick, noiseStep, hd, State.withInputs, putInputs, dlTick, shiftDelay, envStep, oscStep,
            cntGate, hp, mixOut, hm]
        | some m => simp [execTick, noiseStep, hd, State.withInputs, putInputs, dlTick, shiftDelay, envStep, oscStep,
            cntGate, hp, mixOut, hm, State.bump]
  | dlTick x =>
    show execDlTick x _ = putInputs xs (execDlTick x s)
    cases hd : s.dl <;> simp [execDlTick, dlTick, shiftDelay, State.withInputs, hd, putInputs, State.hand]
  | cntGate =>
    show execCntGate _ = putInputs xs (execCntGate s)
    by_cases hp : s.derived.psamp = 0 <;>
      simp [execCntGate, cntGate, State.withInputs, hp, putInputs, State.hand, State.bump]
  | mixOut a b c d =>
    show execMixOut _ _ _ _ _ = putInputs xs (execMixOut _ _ _ _ s)
    cases hm : cfgMode s.cfg <;>
      simp [execMixOut, mixOut, State.withInputs, hm, putInputs, State.hand, State.bump]
  | _ => rfl

/-- No event looks at them. -/
theorem accept_withInputs (x : Input) (s : State) (xs) : accept x (s.withInputs xs) = putInputs xs (accept x s) := by
  cases x with
  | cmd w =>
    simp only [accept, runWord]
    cases decode w with
    | ok i => exact exec_withInputs i s xs
    | error r => cases r <;> rfl
  | reset c i sd =>
    simp only [accept, resetOp]
    split_ifs <;> rfl

/-- Events fed in two parts. -/
theorem feed_append (xs ys : List Input) (s : State) : feed (xs ++ ys) s = match feed xs s with
    | .next t => feed ys t | .fault f => .fault f | .refused r => .refused r := by
  induction xs generalizing s with
  | nil => rfl
  | cons x xs ih => simp only [List.cons_append, feed]; cases accept x s <;> simp [ih]

end Sys2Proof.Laws
end

