-- ==== Sys2Proof/Tests/Slice0.lean ====
section
/-! SUPPORT. The model's own tests: words written out from the spec's encodings, vectors of 95_test_vectors.md, and for each
statement with hypotheses a concrete state and operands that meet them. -/

namespace Sys2Proof.Tests

-- One theorem after the other: the thread of each that waits for the kernel takes memory.
set_option Elab.async false

open Sys2Proof.Machine Sys2Proof.Safety Sys2Proof.Laws
open Host (Outcome)

/-! ## Helpers -/

/-- What `f` reads in the next state of an outcome. -/
def got {α : Type} (f : State → α) : Outcome State Fault Refusal → Option α
  | .next s => some (f s)
  | .fault _ => none
  | .refused _ => none

/-- The snapshot of the source's scenario, `a, b, c, d = 0`, `e = -1`, `f = 1` (95_test_vectors.md P1). -/
def demoSnap : Snapshot := ⟨0x00000000#32, 0x00000000#32, 0x00000000#32, 0x00000000#32, 0xBF800000#32, 0x3F800000#32⟩

/-- Its derived registers under `CFG = 0x00`, as P1 lists them. -/
def demoRegs : Derived where
  period := 0x3F8CCCCD#32
  duty := 0x3F000000#32
  cf := 0x42000000#32
  fmRate := 0x41800000#32
  fmDepth := 0x3F800000#32
  depth := 0x3F000000#32
  fbg := 0x3F000000#32
  og := 0x3F800000#32
  dlLen := 1
  psamp := 48510

/-- The start state of P1. -/
def demo : State where
  cfg := 0x00#8
  pq := []
  wr := 0
  rd := 0
  act := demoSnap
  derived := demoRegs
  seed := 0x12345678#32
  envPh := 0x00000000#32
  oscPh := 0x00000000#32
  fmPh := 0x00000000#32
  cnt := 0#32
  dl := [0x00000000#32]
  err := 0b00#2
  cOut := 0x00000000#32
  pOk := false
  draws := 1
  unitOut := .nothing
  inputs := []

/-- The same with a full queue. -/
def demoFull : State :=
  { demo with pq := (List.range 200).map fun i => (i, demoSnap), wr := 200 }

/-- The same with room for one more. -/
def demoAlmost : State :=
  { demo with pq := (List.range 199).map fun i => (i, demoSnap), wr := 199 }

/-- The same with one snapshot pending. -/
def demoOne : State := { demo with pq := [(0, demoSnap)], wr := 1 }

/-! ## Well-formedness -/

theorem test_wf_refuses_long_resize : ¬ (Instr.dlResize (2 ^ 32)).WellFormed := by decide

/-! ## Decoding: the words of R82, R83, R86, R87, written out -/

theorem test_decode_nopP : decode (.portP (0b0000#4 ++ 0x123#192)) = .ok (.nopP 0x123#192) := by decide
theorem test_decode_push :
    decode (.portP (0b0001#4 ++ 0x00000006#32 ++ 0x00000005#32 ++ 0x00000004#32 ++ 0x00000003#32 ++ 0x00000002#32 ++
      0x00000001#32)) = .ok (.push ⟨1#32, 2#32, 3#32, 4#32, 5#32, 6#32⟩) := by decide
theorem test_decode_nopC : decode (.portC 0b0000#4) = .ok .nopC := by decide
theorem test_decode_frame : decode (.portC 0b0010#4) = .ok .frame := by decide
theorem test_decode_tick : decode (.portC 0b0011#4) = .ok .tick := by decide
theorem test_decode_drainLatest : decode (.unit 0b0000#4 0#66) = .ok .drainLatest := by decide
theorem test_decode_map : decode (.unit 0b0001#4 0#66) = .ok .map := by decide
theorem test_decode_dlResize : decode (.unit 0b0010#4 0xFFFFFFFF#66) = .ok (.dlResize 4294967295) := by decide
theorem test_decode_noiseStep : decode (.unit 0b0011#4 0#66) = .ok .noiseStep := by decide
theorem test_decode_dlTick : decode (.unit 0b0100#4 0x80000001#66) = .ok (.dlTick 0x80000001#32) := by decide
theorem test_decode_envStep : decode (.unit 0b0101#4 0#66) = .ok .envStep := by decide
theorem test_decode_oscStep : decode (.unit 0b0110#4 0#66) = .ok .oscStep := by decide
theorem test_decode_cntGate : decode (.unit 0b0111#4 0#66) = .ok .cntGate := by decide
theorem test_decode_mixOut :
    decode (.unit 0b1000#4 (0b1#1 ++ 0b0#1 ++ 0x22222222#32 ++ 0x11111111#32)) =
      .ok (.mixOut 0x11111111#32 false 0x22222222#32 true) := by decide

/-- The codes of the other port and the reserved codes are illegal on each port (R88). -/
theorem test_decode_rejects :
    decode (.portP (0x2#4 ++ 0#192)) = .error (.illegalP 0x2#4) ∧
    decode (.portP (0xF#4 ++ 0#192)) = .error (.illegalP 0xF#4) ∧
    decode (.portC 0x1#4) = .error (.illegalC 0x1#4) ∧
    decode (.portC 0x4#4) = .error (.illegalC 0x4#4) ∧
    decode (.unit 0x9#4 0#66) = .error (.unusedUnitCode 0x9#4) ∧
    decode (.unit 0x5#4 1#66) = .error (.strayOperandBits 0x5#4) := by decide

/-- The rows of opcode_table.json by their own bits, in whole bytes; rows 0, 2 and 3 of format `U` share theirs with
format `CW` (log entry 6). -/
theorem test_table_words :
    decodeTableWord 200 0 = some (.nopP 0#192) ∧
    decodeTableWord 200 0x1000000000000000000000000000000000000000000000000 =
      some (.push ⟨0#32, 0#32, 0#32, 0#32, 0#32, 0#32⟩) ∧
    decodeTableWord 8 0 = some .nopC ∧ decodeTableWord 8 2 = some .frame ∧ decodeTableWord 8 3 = some .tick ∧
    decodeTableWord 8 1 = some .map ∧ decodeTableWord 8 4 = some (.dlTick 0#32) ∧
    decodeTableWord 8 5 = some .envStep ∧ decodeTableWord 8 6 = some .oscStep ∧
    decodeTableWord 8 7 = some .cntGate ∧ decodeTableWord 8 8 = some (.mixOut 0#32 false 0#32 false) ∧
    decodeTableWord 8 9 = none := by decide

/-- The first word after reset is run by the first step. -/
theorem test_fetch_tick : got (fun s => (s.cnt, s.dl.length)) (step (State.reset.withFetchWord 8 3)) = some (1#32, 4) := by
  decide +kernel

/-! ## Numbers (95_test_vectors.md 2.1). The NaN argument is only a marker: it is answered where a NaN is. -/

theorem test_fadd (nan : F32) :
    fadd nan 0x3F800000#32 0x33800000#32 = 0x3F800000#32 ∧ fadd nan 0x3F800001#32 0x33800000#32 = 0x3F800002#32 ∧
    fadd nan 0x7F7FFFFF#32 0x7F7FFFFF#32 = 0x7F800000#32 ∧ fadd nan 0x7F800000#32 0xFF800000#32 = nan ∧
    fadd nan 0x3F800000#32 0xBF800000#32 = 0x00000000#32 ∧ fadd nan 0x80000000#32 0x80000000#32 = 0x80000000#32 ∧
    fadd nan 0x00000001#32 0x00000001#32 = 0x00000002#32 := by
  refine ⟨?_, ?_, ?_, ?_, ?_, ?_, ?_⟩ <;> rfl

theorem test_fmul (nan : F32) :
    fmul nan 0x00800000#32 0x3F000000#32 = 0x00400000#32 ∧ fmul nan 0x00000001#32 0x3F000000#32 = 0x00000000#32 ∧
    fmul nan 0x00000003#32 0x3F000000#32 = 0x00000002#32 ∧ fmul nan 0x7F800000#32 0x00000000#32 = nan ∧
    fmul nan 0xBF800000#32 0x00000000#32 = 0x80000000#32 ∧ fmul nan 0x7F7FFFFF#32 0x40000000#32 = 0x7F800000#32 ∧
    fmul nan 0x39156593#32 0x472C4400#32 = 0x40C90FDB#32 := by
  refine ⟨?_, ?_, ?_, ?_, ?_, ?_, ?_⟩ <;> rfl

theorem test_fdiv (nan : F32) :
    fdiv nan 0x3F800000#32 0x40400000#32 = 0x3EAAAAAB#32 ∧ fdiv nan 0x3F800000#32 0x00000000#32 = 0x7F800000#32 ∧
    fdiv nan 0xBF800000#32 0x00000000#32 = 0xFF800000#32 ∧ fdiv nan 0x00000000#32 0x00000000#32 = nan ∧
    fdiv nan 0x39156593#32 0x3DCCCCCD#32 = 0x3ABABEF8#32 ∧ fdiv nan 0x39156593#32 0x40066666#32 = 0x388E485C#32 := by
  refine ⟨?_, ?_, ?_, ?_, ?_, ?_⟩ <;> rfl

theorem test_compare :
    fle 0x7FC00000#32 0x40C90FDB#32 = false ∧ fle 0x80000000#32 0x00000000#32 = true ∧
    fge 0x40C90FDB#32 0x40C90FDB#32 = true ∧ flt 0x00000000#32 0x00000000#32 = false := by decide +kernel

theorem test_fround :
    fround 0x40200000#32 = 0x40400000#32 ∧ fround 0x3F000000#32 = 0x3F800000#32 ∧ fround 0xBF000000#32 = 0xBF800000#32 ∧
    fround 0xC0200000#32 = 0xC0400000#32 ∧ fround 0x3EFFFFFF#32 = 0x00000000#32 ∧ fround 0x3FBFFFFF#32 = 0x3F800000#32 ∧
    fround 0x4B000001#32 = 0x4B000001#32 ∧ fround 0x7F800000#32 = 0x7F800000#32 := by decide +kernel

theorem test_f2iSat :
    f2iSat 0x7FC00000#32 44100 = 0 ∧ f2iSat 0xC0400000#32 44100 = 0 ∧ f2iSat 0x80000000#32 44100 = 0 ∧
    f2iSat 0x3F800000#32 44100 = 1 ∧ f2iSat 0x472C4300#32 44100 = 44099 ∧ f2iSat 0x472C4400#32 44100 = 44100 ∧
    f2iSat 0x7F800000#32 44100 = 44100 ∧ f2iSat 0x7F800000#32 (2 ^ 200) = 2 ^ 200 := by decide +kernel

theorem test_i2f :
    i2f 0 = 0x00000000#32 ∧ i2f 48510 = 0x473D7E00#32 ∧ i2f 16777217 = 0x4B800000#32 ∧ i2f 16777219 = 0x4B800002#32 ∧
    i2f 4294967295 = 0x4F800000#32 := by decide +kernel

theorem test_fexp2 :
    fexp2 0x00000000#32 = 0x3F800000#32 ∧ fexp2 0x40A00000#32 = 0x42000000#32 ∧ fexp2 0xC2FC0000#32 = 0x00800000#32 ∧
    fexp2 0x42FE0000#32 = 0x7F000000#32 ∧ fexp2 0x43000000#32 = 0x7F800000#32 ∧ fexp2 0xFF800000#32 = 0x00000000#32 := by
  decide +kernel

theorem test_fsin_zero : fsin 0x00000000#32 = 0x00000000#32 := by decide

theorem test_wrap (nan : F32) :
    wrap nan 0x40C90FDB#32 = 0x00000000#32 ∧ wrap nan 0x40C90FDA#32 = 0x40C90FDA#32 ∧
    wrap nan 0x40C90FDC#32 = 0x35000000#32 ∧ wrap nan 0xBF800000#32 = 0xBF800000#32 ∧
    wrap nan 0x41500000#32 = 0x40D6F025#32 ∧ wrap nan 0x7F800000#32 = 0x7F800000#32 := by
  refine ⟨?_, ?_, ?_, ?_, ?_, ?_⟩ <;> rfl

/-! ## The channel (2.2, 2.10) -/

theorem test_push_wraps_cursor :
    got (fun s => (s.wr, s.pOk, s.pq)) (exec (.push demoSnap) { demo with wr := 399, rd := 200 }) =
      some (0, true, [(199, demoSnap)]) := by decide
theorem test_push_full : got (fun s => (s.wr, s.pOk, s.pq)) (exec (.push demoSnap) { demo with wr := 0, rd := 200 }) =
    some (0, false, []) := by decide
theorem test_drain_newest :
    got (fun s => (s.rd, s.pq, s.unitOut))
      (exec .drainLatest { demo with pq := [(198, Snapshot.zero), (199, demoSnap)], wr := 0, rd := 398 }) =
      some (0, [], .snapshot (some demoSnap)) := by decide
theorem test_drain_empty : got (fun s => (s.rd, s.unitOut)) (exec .drainLatest { demo with wr := 7, rd := 7 }) =
    some (7, .snapshot none) := by decide
theorem test_illegal_portP :
    step { demo with inputs := [.cmd (.portP (0x2#4 ++ 0#192))] } = .next { demo with err := 0b01#2 } := rfl
theorem test_illegal_portC :
    step { demo with inputs := [.cmd (.portC 0x1#4)] } = .next { demo with err := 0b10#2 } := rfl
theorem test_nopP : exec (.nopP 5#192) demo = .next demo := rfl
theorem test_nopC : exec .nopC demo = .next demo := rfl

/-! ## Reset and the mapper (P1, 2.3, 2.10) -/

theorem test_mapRegs_demo : mapRegs 1 demoSnap 0x00#8 = demoRegs := by decide +kernel
/-- 2.3 (b), all three alternative mappings. -/
theorem test_mapRegs_alternative :
    mapRegs 1 ⟨0x3F000000#32, 0xBF000000#32, 0x3E800000#32, 0x3F800000#32, 0xBF800000#32, 0x00000000#32⟩ 0x1C#8 =
      ⟨0x3FCCCCCD#32, 0x3E800000#32, 0x42000000#32, 0x3FA00000#32, 0x46800000#32, 0x3F800000#32, 0x3F200000#32,
        0x3F000000#32, 1, 70560⟩ := by decide +kernel
theorem test_map : got (fun s => s.derived) (exec .map { demo with derived := mapRegs 0 Snapshot.zero 0x00#8 }) =
    some demoRegs := by decide +kernel
theorem test_reset : got (fun s => (s.derived, s.dl, s.seed, s.cfg))
    (accept (.reset 0x00#8 demoSnap.toWord 0x12345678#32) State.reset) =
      some (demoRegs, [0x00000000#32], 0x12345678#32, 0x00#8) := by decide +kernel
theorem test_reset_refused : accept (.reset 0x1F#8 0#192 1#32) demo = .refused .badConfig ∧
    accept (.reset 0x20#8 0#192 1#32) demo = .refused .badConfig := by constructor <;> rfl

/-! ## The units (2.4 to 2.9) -/

theorem test_noiseStep : got (fun s => (s.seed, s.unitOut)) (exec .noiseStep demo) =
    some (0x87985AA5#32, .sample 0xBF70CF4C#32) := by decide +kernel
theorem test_prngOut_corners :
    prngOut 0x80000000#32 = 0xBF800000#32 ∧ prngOut 0x7FFFFF00#32 = 0x3F7FFFFE#32 ∧
    prngOut 0x000000FF#32 = 0x00000000#32 ∧ prngOut 0xFFFFFF00#32 = 0xB4000000#32 := by decide +kernel
theorem test_dlTick : got (fun s => (s.dl, s.unitOut))
    (exec (.dlTick 0x40800000#32) { demo with dl := [0x3F800000#32, 0x40000000#32, 0x40400000#32] }) =
      some ([0x40000000#32, 0x40400000#32, 0x40800000#32], .sample 0x3F800000#32) := by decide
theorem test_dlTick_empty : exec (.dlTick 0x40800000#32) { demo with dl := [] } = .fault .dlEmpty := rfl
theorem test_dlResize : got (fun s => s.dl) (exec (.dlResize 2) { demo with dl := [0x3F800000#32] }) =
    some [0x00000000#32, 0x00000000#32] := by decide
theorem test_dlResize_zero : got (fun s => s.dl) (exec (.dlResize 0) demo) = some [0x00000000#32] := by decide
/-- Row (c): a wrap onto a positive phase, closed by a duty cycle of 0. -/
theorem test_envStep_wraps : got (fun s => (s.envPh, s.unitOut)) (exec .envStep
    { demo with envPh := 0x40C90FD0#32, derived := { demoRegs with period := 0x3DCCCCCD#32, duty := 0x00000000#32 } }) =
      some (0x3ABA1000#32, .gate false) := by decide +kernel
/-- Row (d): a duty cycle of 1 keeps the gate open. -/
theorem test_envStep_open : got (fun s => (s.envPh, s.unitOut)) (exec .envStep
    { demo with envPh := 0x40C90FDA#32, derived := { demoRegs with period := 0x3DCCCCCD#32, duty := 0x3F800000#32 } }) =
      some (0x3ABAB000#32, .gate true) := by decide +kernel
/-- The third row of 2.6 (b): the carrier wraps. -/
theorem test_oscStep : got (fun s => (s.fmPh, s.oscPh)) (exec .oscStep
    { demo with oscPh := 0x40C90AAF#32, derived := { demoRegs with fmRate := 0x00000000#32 } }) =
      some (0x00000000#32, 0x3B80B400#32) := by decide +kernel
/-- Rows (b) and (c): the comparison is strict. -/
theorem test_cntGate_open : got (fun s => s.unitOut) (exec .cntGate { demo with cnt := 24254#32 }) = some (.gate true) := by
  decide +kernel
theorem test_cntGate_closed :
    got (fun s => s.unitOut) (exec .cntGate { demo with cnt := 24255#32 }) = some (.gate false) := by decide +kernel
theorem test_mixOut_mix : got (fun s => s.unitOut)
    (exec (.mixOut 0x3E800000#32 true 0x3F000000#32 false)
      { demo with cfg := 0x02#8, derived := { demoRegs with og := 0x3F000000#32 } }) = some (.sample 0x3E000000#32) := by
  decide +kernel
theorem test_mixOut_selects : got (fun s => s.unitOut) (exec (.mixOut 0x7FC00000#32 false 0x7FC00000#32 true) demo) =
    some (.sample 0x00000000#32) := by decide +kernel

/-! ## FRAME and TICK (P1, P2) -/

/-- The state of P2 before its second `FRAME`: two snapshots pending, four samples in the delay line. -/
def beforeFrame : State :=
  { demo with
    pq := [(0, demoSnap), (1, ⟨0#32, 0#32, 0x3F800000#32, 0#32, 0xBF000000#32, 0x3F800000#32⟩)]
    wr := 2
    dl := [0x3E9041E8#32, 0xBEFC98A8#32, 0x3E5018D0#32, 0x3E5159D0#32]
    cnt := 6#32 }

/-- The newest of the two is applied. -/
theorem test_frame_applies : got (fun s => (s.rd, s.act.c, s.derived.fbg, s.derived.fmRate, s.derived.og))
    (exec .frame beforeFrame) = some (2, 0x3F800000#32, 0x3F800000#32, 0x43800000#32, 0x3F800000#32) := by decide +kernel
/-- The delay line is cleared to its new length, the counter and the seed run on. -/
theorem test_frame_resizes : got (fun s => (s.dl, s.cnt, s.seed)) (exec .frame beforeFrame) =
    some ([0x00000000#32, 0x00000000#32], 6#32, 0x12345678#32) := by decide +kernel
/-- The first tick of P1. -/
theorem test_tick_first : got (fun s => (s.cOut, s.dl, s.envPh, s.cnt, s.seed, s.fmPh)) (exec .tick demo) =
    some (0xBEF0CF4C#32, [0xBEF0CF4C#32], 0x3907D0B4#32, 1#32, 0x87985AA5#32, 0x3B156593#32) := by decide +kernel
/-- The second tick of P1, in which the first is fed back. -/
theorem test_tick_feedback : got (fun s => (s.cOut, s.dl, s.envPh)) (exec .tick
    { demo with seed := 0x87985AA5#32, dl := [0xBEF0CF4C#32], envPh := 0x3907D0B4#32, cnt := 1#32 }) =
      some (0xBE1B62BC#32, [0xBE1B62BC#32], 0x3987D0B4#32) := by decide +kernel

/-! ## Witnesses: the start state of P1 meets the invariants -/

theorem demo_inv : Inv demo where
  cfgLegal := by decide
  wrRange := by decide
  rdRange := by decide
  countLe := by decide
  ringWf := by decide
  liveWritten := by decide
  heldOnly := by decide
  derivedCache := ⟨1, test_mapRegs_demo.symm⟩
  seedNonzero := by decide
  delayNonempty := by decide
  delayBounded := by decide

theorem demoOne_inv : Inv demoOne where
  cfgLegal := by decide
  wrRange := by decide
  rdRange := by decide
  countLe := by decide
  ringWf := by decide
  liveWritten := by decide
  heldOnly := by decide
  derivedCache := ⟨1, test_mapRegs_demo.symm⟩
  seedNonzero := by decide
  delayNonempty := by decide
  delayBounded := by decide

theorem demoFull_inv : Inv demoFull where
  cfgLegal := by decide
  wrRange := by decide
  rdRange := by decide
  countLe := by decide
  ringWf := by decide +kernel
  liveWritten := by decide +kernel
  heldOnly := by decide +kernel
  derivedCache := ⟨1, test_mapRegs_demo.symm⟩
  seedNonzero := by decide
  delayNonempty := by decide
  delayBounded := by decide

theorem demoAlmost_inv : Inv demoAlmost where
  cfgLegal := by decide
  wrRange := by decide
  rdRange := by decide
  countLe := by decide
  ringWf := by decide +kernel
  liveWritten := by decide +kernel
  heldOnly := by decide +kernel
  derivedCache := ⟨1, test_mapRegs_demo.symm⟩
  seedNonzero := by decide
  delayNonempty := by decide
  delayBounded := by decide

/-- A `TICK` completes on any state with the configuration and the delay line of P1. -/
theorem demo_ticks {s : State} (hi : Inv s) : ∃ t, exec .tick s = .next t := by
  have hm := hi.cfgLegal
  simp only [legalCfg, Bool.and_eq_true] at hm
  obtain ⟨n, hn⟩ := hi.derivedCache
  have hp := periodSamples_pos n (periodOf n (remap n .a s.act))
  have hp : s.derived.psamp ≠ 0 := by rw [hn]; exact Nat.ne_of_gt hp
  refine execTick_completes ?_ hp hm.1
  intro h; have := hi.delayNonempty; simp [h] at this

theorem feed_tick (s : State) : feed [present .tick] s = exec .tick s := by
  show (match accept (present .tick) s with
    | .next s' => feed [] s' | .fault f => .fault f | .refused r => .refused r) = _
  rw [accept_tick (x := present .tick) (by decide)]
  cases exec .tick s <;> rfl

/-! ## Witnesses, statement by statement -/

theorem witness_DecodeOfEncode : (Instr.dlResize 0).WellFormed ∧ (Instr.dlResize (2 ^ 32 - 1)).WellFormed := by decide

theorem witness_StepRunsDecodedInstruction : ∃ s : State,
    s.inputs = .cmd (.portC 0x3#4) :: [] ∧ decode (.portC 0x3#4) = .ok .tick :=
  ⟨demo.withInputs [.cmd (.portC 0x3#4)], rfl, rfl⟩

theorem witness_IllegalWord :
    (∃ s : State, s.inputs = .cmd (.portP (0x2#4 ++ 0#192)) :: []) ∧
    opP (0x2#4 ++ 0#192) ≠ 0x0#4 ∧ opP (0x2#4 ++ 0#192) ≠ 0x1#4 ∧
    opP (0xF#4 ++ 0#192) ≠ 0x0#4 ∧ opP (0xF#4 ++ 0#192) ≠ 0x1#4 ∧
    (∃ s : State, s.inputs = .cmd (.portC 0x1#4) :: []) ∧
    (0x1#4 ≠ 0x0#4 ∧ 0x1#4 ≠ 0x2#4 ∧ 0x1#4 ≠ 0x3#4) ∧ (0xF#4 ≠ 0x0#4 ∧ 0xF#4 ≠ 0x2#4 ∧ 0xF#4 ≠ 0x3#4) :=
  ⟨⟨demo.withInputs _, rfl⟩, by decide, by decide, by decide, by decide, ⟨demo.withInputs _, rfl⟩, by decide, by decide⟩

theorem witness_StepRuns_idle : State.reset.inputs = [] := rfl

theorem witness_StepsAreFeed : feed [present .nopC] (demo.withInputs [present .tick]) =
    .next (demo.withInputs [present .tick]) := rfl

theorem witness_ResetProcedure :
    (demo.withInputs [.reset 0x03#8 0#192 0#32]).inputs = [.reset 0x03#8 0#192 0#32] ∧
    (0x03#8).extractLsb' 0 2 = 0b11#2 ∧ (0x20#8).extractLsb' 5 3 ≠ 0b000#3 ∧
    (0x1E#8).extractLsb' 0 2 ≠ 0b11#2 ∧ (0x1E#8).extractLsb' 5 3 = 0b000#3 := by decide

theorem witness_ResetStateIsTheZeroReset : ∃ s : State, s.draws = 0 ∧ s.inputs = [] :=
  ⟨{ demo with draws := 0 }, rfl, rfl⟩

theorem witness_StepKeepsInvariant : Inv demo ∧ step demo = .next demo ∧
    (∃ t, step (demo.withInputs [present .tick]) = .next t) :=
  ⟨demo_inv, rfl, by
    obtain ⟨t, ht⟩ := demo_ticks demo_inv
    exact ⟨_, (accept_tick (x := present .tick) (by decide) (demo.withInputs [])).trans ht⟩⟩

theorem witness_CommandsKeepDelayLength : ∃ s t : State, Inv s ∧ Synced s ∧ s.inputs = present .nopC :: [] ∧
    isPort (present .nopC) = true ∧ isReset (.reset 0x00#8 0#192 0#32) = true ∧ step s = .next t :=
  ⟨demo.withInputs [present .nopC], demo,
    inv_congr demo_inv rfl rfl rfl rfl demo_inv.derivedCache demo_inv.seedNonzero demo_inv.delayNonempty
      demo_inv.delayBounded, rfl, rfl, by decide, rfl, rfl⟩

theorem witness_EveryCommandCompletes : ∃ (s : State) (x : Input), Inv s ∧ s.inputs = x :: [] ∧ isPort x = true :=
  ⟨demo.withInputs [.cmd (.portC 0xF#4)], _,
    inv_congr demo_inv rfl rfl rfl rfl demo_inv.derivedCache demo_inv.seedNonzero demo_inv.delayNonempty
      demo_inv.delayBounded, rfl, rfl⟩

theorem witness_ContractFaults :
    ({ demo with dl := [] } : State).dl = [] ∧
    (demo.dl ≠ [] ∧ ({ demo with derived := { demoRegs with psamp := 0 } } : State).derived.psamp = 0) ∧
    (demo.derived.psamp ≠ 0 ∧ ({ demo with cfg := 0x03#8 } : State).cfg.extractLsb' 0 2 = 0b11#2) ∧
    (queueCount ({ demo with wr := 1 } : State).wr demo.rd ≠ 0 ∧
      ({ demo with wr := 1 } : State).pq.read (newestIndex 1) = none) := by decide

theorem witness_PushStoresOneEntry : demoOne.pq.wf = true ∧ queueFull demoOne = false ∧ 0 ≠ ringIndex demoOne.wr := by
  decide

theorem witness_DrainLatest : queueCount demo.wr demo.rd = 0 ∧ queueCount demoOne.wr demoOne.rd ≠ 0 ∧
    demoOne.pq.read (((demoOne.wr : Int) - 1) % 200).toNat = some demoSnap := by decide

theorem witness_ChannelIsABoundedList :
    Inv demo ∧ (held demo).length ≠ 200 ∧ Inv demoFull ∧ (held demoFull).length = 200 :=
  ⟨demo_inv, by decide, demoFull_inv, by decide +kernel⟩

theorem witness_DrainIsThePopLoop : Inv demo ∧ queueCount demo.wr demo.rd ≤ 0 ∧
    Inv demoFull ∧ queueCount demoFull.wr demoFull.rd ≤ 200 :=
  ⟨demo_inv, by decide, demoFull_inv, by decide⟩

/-- The words between are an idle word, an illegal one and a push that is refused. -/
theorem witness_FrameAppliesTheNewestAcceptedPush : ∃ (s s1 s2 : State) (xs : List Input), Inv s ∧
    exec (.push demoSnap) s = .next s1 ∧ s1.pOk = true ∧ xs.countP isPush = 1 ∧
    (∀ x ∈ xs, isPort x = true ∧ isFrame x = false) ∧
    (∀ (ys zs : List Input) (x : Input) (u v : State), xs = ys ++ x :: zs → isPush x = true →
      feed ys s1 = .next u → accept x u = .next v → v.pOk = false) ∧
    feed xs s1 = .next s2 := by
  refine ⟨demoAlmost, _, _, [present .nopC, .cmd (.portP (0x7#4 ++ 0#192)), present (.push Snapshot.zero)],
    demoAlmost_inv, rfl, rfl, by decide, ?_, ?_, rfl⟩
  · intro x hx
    simp only [List.mem_cons, List.not_mem_nil, or_false] at hx
    rcases hx with rfl | rfl | rfl <;> decide
  · intro ys zs x u v he hp hu hv
    rcases ys with - | ⟨a, - | ⟨b, - | ⟨c, ys⟩⟩⟩
    · cases he; exact absurd hp (by decide)
    · cases he; exact absurd hp (by decide)
    · cases he; cases hu; cases hv; rfl
    · cases ys <;> cases he

theorem witness_OverflowDropsTheNewest : Inv demo ∧ queueCount demo.wr demo.rd = 0 ∧
    200 ≤ (List.replicate 250 demoSnap).length := ⟨demo_inv, by decide, by rw [List.length_replicate]; decide⟩

theorem witness_FrameAppliesAndResizes : queueCount demo.wr demo.rd = 0 ∧ queueCount demoOne.wr demoOne.rd ≠ 0 ∧
    demoOne.pq.read (newestIndex demoOne.wr) = some demoSnap := by decide

theorem witness_TickProducesOneSample : demo.dl = 0x00000000#32 :: [] ∧ demo.derived.psamp ≠ 0 ∧
    cfgMode demo.cfg = some .noise ∧ cfgMode 0x01#8 = some .osc ∧ cfgMode 0x02#8 = some .mix := by decide

theorem witness_TickIsItsUnitOperations : ∃ t, exec .tick demo = .next t := demo_ticks demo_inv

theorem witness_MixOut : demo.cfg.extractLsb' 0 2 = 0b00#2 ∧
    ({ demo with cfg := 0x01#8 } : State).cfg.extractLsb' 0 2 = 0b01#2 ∧
    ({ demo with cfg := 0x02#8 } : State).cfg.extractLsb' 0 2 = 0b10#2 := by decide

theorem witness_ClosedGateIsSilent : ∃ s t : State, cfgMode s.cfg = some .noise ∧ isFinite s.derived.og = true ∧
    envGate (s.draws + 1) (envAdvance (s.draws + 1) s.envPh s.derived.period) s.derived.duty = false ∧
    exec .tick s = .next t := by
  obtain ⟨t, ht⟩ := execTick_completes (s := { demo with derived := { demoRegs with duty := 0x00000000#32 } })
    (by decide) (by decide) (by decide)
  exact ⟨{ demo with derived := { demoRegs with duty := 0x00000000#32 } }, t, by decide, by decide, by decide +kernel,
    ht⟩

theorem witness_ModeSelectsOnlyTheOutput : ∃ s t s' : State, Inv s ∧ Inv t ∧ isPort (present .nopC) = true ∧
    s.inputs = present .nopC :: [] ∧ t.cfg.extractLsb' 2 6 = s.cfg.extractLsb' 2 6 ∧
    t = { s with cfg := t.cfg, cOut := t.cOut } ∧ t.cfg ≠ s.cfg ∧ step s = .next s' := by
  refine ⟨demo.withInputs [present .nopC], { demo.withInputs [present .nopC] with cfg := 0x02#8 }, demo, ?_, ?_,
    by decide, rfl, by decide, rfl, by decide, rfl⟩
  · exact inv_congr demo_inv rfl rfl rfl rfl demo_inv.derivedCache demo_inv.seedNonzero demo_inv.delayNonempty
      demo_inv.delayBounded
  · exact ⟨by decide, by decide, by decide, by decide, by decide, by decide, by decide, ⟨1, by decide +kernel⟩, by decide,
      by decide, by decide⟩

theorem witness_CombFilterRecurrence : ∃ (s1 t u : State) (v w : F32), feed [present .tick] demo = .next s1 ∧
    s1.dl.getLast? = some v ∧ feed (List.replicate demo.dl.length (present .tick)) demo = .next t ∧
    feed [present .tick] t = .next u ∧ u.dl.getLast? = some w := by
  obtain ⟨s1, h1⟩ := demo_ticks demo_inv
  obtain ⟨old, rest, -, hp, hm, hs⟩ := execTick_frame (show execTick demo = _ from h1)
  have hd : s1.dl ≠ [] := by rw [hs]; simp
  obtain ⟨u, h2⟩ := execTick_completes (s := s1) hd (by rw [hs]; exact hp) (by rw [hs]; exact hm)
  obtain ⟨old', rest', -, -, -, hu⟩ := execTick_frame h2
  obtain ⟨v, hv⟩ : ∃ v, s1.dl.getLast? = some v := by rw [hs]; exact ⟨_, List.getLast?_concat⟩
  obtain ⟨w, hw⟩ : ∃ w, u.dl.getLast? = some w := by rw [hu]; exact ⟨_, List.getLast?_concat⟩
  exact ⟨s1, s1, u, v, w, (feed_tick demo).trans h1, hv, (feed_tick demo).trans h1, (feed_tick s1).trans h2, hw⟩

theorem witness_RemapIntoUnitInterval : between 0xBF800000#32 0x3F800000#32 (control demoSnap .e) = true ∧
    between 0xBF800000#32 0x3F800000#32 (control demoSnap .f) = true := by decide +kernel

theorem witness_ExpDelay : (0x00#8).getLsbD 4 = false ∧ between 0xBF800000#32 0x3F800000#32 demoSnap.e = true ∧
    between 0xBF800000#32 0x3F800000#32 ({ demoSnap with e := 0x3F800000#32 } : Snapshot).e = true := by decide +kernel

theorem witness_NoiseValueIsExact : (0x000000FF#32).extractLsb' 8 24 = 0#24 := by decide

theorem witness_PrngStepIsInjective : prngStep 1#32 = prngStep 1#32 := rfl

theorem witness_NoiseDependsOnSeedAndTicksOnly : ∃ t : State, (∀ x ∈ [present .tick], isPort x = true) ∧
    feed [present .tick] demo = .next t := by
  obtain ⟨t, ht⟩ := demo_ticks demo_inv
  exact ⟨t, by decide, (feed_tick demo).trans ht⟩

theorem witness_DelayTick : demo.dl = 0x00000000#32 :: [] ∧ ({ demo with dl := [] } : State).dl = [] := by decide

theorem witness_DelayLineIsAPureDelay : demo.dl ≠ [] ∧ 0 + demo.dl.length < [1#32, 2#32].length := by decide

theorem witness_ResizedDelayReturnsZeros : ∃ t, exec (.dlResize 0) demo = .next t ∧
    [0x3F800000#32].length ≤ min (max 1 0) 44100 := ⟨_, rfl, by decide⟩

theorem witness_DelayRam : ({ ram := [1#32, 2#32], ptr := 1 } : DelayRam).ptr < [1#32, 2#32].length := by decide

theorem witness_Wrap : (fle 0x00000000#32 0x80000000#32 = true ∧ flt 0x80000000#32 0x41490FDB#32 = true) ∧
    fle 0x00000000#32 0x41490FDA#32 = true ∧ flt 0x41490FDA#32 0x41490FDB#32 = true := by decide +kernel

theorem witness_CounterGate : 1 ≤ demo.derived.psamp := by decide

theorem witness_CounterGateExtremes : 1 ≤ 2 ^ 32 - 1 ∧ (1 ≤ 1 ∧ 1 ≤ 2 ^ 24) ∧ 1 ≤ 2 ^ 24 ∧ 2 ^ 24 ≤ 2 ^ 24 := by decide

theorem witness_FmPhase : ∃ s t : State, phaseInRange s.fmPh = true ∧
    between 0x00000000#32 0x43800000#32 s.derived.fmRate = true ∧ exec .oscStep s = .next t :=
  ⟨{ demo with fmPh := 0x40C90FDA#32, derived := { demoRegs with fmRate := 0x43800000#32 } }, _, by decide +kernel,
    by decide +kernel, rfl⟩

theorem witness_EnvPhase : ∃ s t : State, phaseInRange s.envPh = true ∧
    between 0x3DCCCCCD#32 0x40066666#32 s.derived.period = true ∧ exec .envStep s = .next t ∧
    s.derived.duty = 0x3F800000#32 :=
  ⟨{ demo with envPh := 0x40C90FDA#32, derived := { demoRegs with period := 0x3DCCCCCD#32, duty := 0x3F800000#32 } }, _,
    by decide +kernel, by decide +kernel, rfl, rfl⟩

theorem witness_NanPhase : ∃ s t u : State, isNaN s.envPh = true ∧ exec .envStep s = .next t ∧
    (∀ x ∈ [present .tick], isPort x = true) ∧ feed [present .tick] s = .next u := by
  obtain ⟨u, hu⟩ := execTick_completes (s := { demo with envPh := 0x7FC00000#32 }) (by decide) (by decide) (by decide)
  exact ⟨{ demo with envPh := 0x7FC00000#32 }, _, u, by decide, rfl, by decide, (feed_tick _).trans hu⟩

theorem witness_AgentsWriteOnlyTheirOwnState :
    (isPortP (present (.push demoSnap)) = true ∧
      ∃ t, accept (present (.push demoSnap)) demo = .next t) ∧
    isPortC (present .frame) = true ∧ ∃ t, accept (present .frame) demo = .next t :=
  ⟨⟨rfl, _, rfl⟩, rfl, _, rfl⟩

theorem witness_CounterCountsTicks : isPort (present .tick) = true ∧ isTick (present .tick) = true ∧
    (∃ t, accept (present .tick) demo = .next t) ∧ isTick (present .nopC) = false ∧
    ∃ t, accept (present .nopC) demo = .next t :=
  ⟨by decide, by decide, by rw [accept_tick (by decide)]; exact demo_ticks demo_inv, by decide, _, rfl⟩

theorem witness_OnlyReset : ∃ s t : State, isReset (present .nopC) = false ∧ accept (present .nopC) s = .next t ∧
    s.err.getLsbD 0 = true := ⟨{ demo with err := 0b01#2 }, _, rfl, rfl, by decide⟩

theorem witness_Arithmetic :
    (isFinite 0x3F800000#32 = true ∧ isFinite 0xC0400000#32 = true ∧ isZero 0xC0400000#32 = false) ∧
    |scaled 0x3F800000#32 + scaled 0xC0400000#32| < (2 ^ 128 - 2 ^ 103) * 2 ^ 149 ∧
    (2 ^ 128 - 2 ^ 103) * 2 ^ 149 ≤ |scaled 0x7F7FFFFF#32 + scaled 0x7F7FFFFF#32| ∧
    (2 ^ 128 - 2 ^ 103) * 2 ^ 149 ≤ |scaled 0x7F7FFFFF#32 - scaled 0xFF7FFFFF#32| ∧
    (2 ^ 128 - 2 ^ 103) * 2 ^ 149 * 2 ^ 149 ≤ |scaled 0x7F7FFFFF#32 * scaled 0xC0400000#32| ∧
    (2 ^ 128 - 2 ^ 103) * 2 ^ 149 * |scaled 0x3F000000#32| ≤ |scaled 0x7F7FFFFF#32 * 2 ^ 149| ∧
    scaled 0x80000000#32 + scaled 0x00000000#32 = 0 ∧ scaled 0x3F800000#32 - scaled 0x3F800000#32 = 0 ∧
    isNaN 0x7FC00000#32 = true ∧ isInf 0x7F800000#32 = true ∧ isInf 0xFF800000#32 = true ∧
    isZero 0x80000000#32 = true ∧ isNaN 0xC0400000#32 = false := by decide +kernel

theorem witness_Comparisons : isNaN 0x7FC00000#32 = true ∧ isFinite 0x7F7FFFFF#32 = true ∧
    isZero 0x80000000#32 = true ∧ isZero 0x00000000#32 = true ∧ isNaN 0x7F800000#32 = false := by decide

theorem witness_FloatToInt : fle 0x80000000#32 0x00000000#32 = true ∧ isFinite 0x472C4400#32 = true ∧
    ((44100 : Nat) : Int) * 2 ^ 149 ≤ scaled 0x472C4400#32 ∧
    scaled 0x472C4300#32 = ((44099 : Nat) : Int) * 2 ^ 149 ∧ 44099 ≤ 44100 := by decide +kernel

theorem witness_IntToFloat : 2 ^ 32 - 1 < 2 ^ 32 ∧ 2 ^ 24 ≤ 2 ^ 24 := by decide

theorem witness_Round : isFinite 0x3F000000#32 = true ∧ isFinite 0x7F800000#32 = false := by decide

theorem witness_Sine : isFinite 0x3FC90FDB#32 = true ∧ isFinite 0xFF800000#32 = false := by decide

theorem witness_Exp2 :
    (isNaN 0xC2FC0000#32 = false ∧ scaled 0xC2FC0000#32 = (-126) * 2 ^ 149) ∧
    (isNaN 0x42FE0000#32 = false ∧ scaled 0x42FE0000#32 = 127 * 2 ^ 149) ∧
    fle 0xFF800000#32 0x3F000000#32 = true ∧ fle 0x43000000#32 0x7F800000#32 = true ∧ isNaN 0x7FC00000#32 = true ∧
    flt 0x42FF0000#32 0x43000000#32 = true := by decide +kernel

end Sys2Proof.Tests
end

/-! PROOF. The host's run of a state that holds its events, against feeding those events (00_scope.md R9, 20_memory.md R69). -/

namespace Sys2Proof.Proofs

open Sys2Proof.Machine Sys2Proof.Laws

/-- A step takes the first event off the list, and the event itself does not see the list. -/
theorem step_withInputs_cons (x : Input) (xs : List Input) (s : State) :
    step (s.withInputs (x :: xs)) = putInputs xs (accept x s) :=
  accept_withInputs x s xs

/-- As many steps as there are events in `xs` are the feed of `xs`, also where an event stops the run. -/
theorem run_eq_feed (xs rest : List Input) (s : State) :
    Host.Core.run Sys2Proof.core xs.length (s.withInputs (xs ++ rest)) = feed xs (s.withInputs rest) := by
  induction xs generalizing s with
  | nil => rfl
  | cons x xs ih =>
    have hstep : Sys2Proof.core.step (s.withInputs (x :: (xs ++ rest))) = putInputs (xs ++ rest) (accept x s) :=
      step_withInputs_cons x (xs ++ rest) s
    simp only [List.length_cons, List.cons_append, Host.Core.run, hstep, feed, accept_withInputs]
    cases accept x s with
    | next u => exact ih u
    | fault f => rfl
    | refused r => rfl

/-- Settles O5: a run is the feed of its events, by induction on the events (`run_eq_feed`). -/
theorem stepsAreFeed : Obligations.StepsAreFeed := by
  intro xs rest s t hfeed
  exact (run_eq_feed xs rest s).trans hfeed

end Sys2Proof.Proofs

/-! PROOF. What a completed event can be, and that every event keeps the invariants of the block (10_state.md R27, R30, R31,
R36, R47, 43_noise_generator.md R173). -/

namespace Sys2Proof.Proofs

open Sys2Proof.Machine Sys2Proof.Safety Sys2Proof.Laws

/-! ## What a completed unit operation answers -/

/-- A completed `DRAIN_LATEST` event hands over what `drainLatest` answers. -/
theorem exec_drainLatest_ok {s t : State} (h : exec .drainLatest s = .next t) :
    ∃ r s', drainLatest s = .ok (r, s') ∧ t = s'.hand (.snapshot r) := by
  change execDrainLatest s = .next t at h
  unfold execDrainLatest at h
  split at h
  · cases h
  · rename_i r s' hd; cases h; exact ⟨r, s', hd, rfl⟩

/-- A completed `DL_TICK` had an oldest sample, which it hands over. -/
theorem exec_dlTick_ok {x : F32} {s t : State} (h : exec (.dlTick x) s = .next t) :
    ∃ y rest, s.dl = y :: rest ∧ t = ({ s with dl := rest ++ [x] } : State).hand (.sample y) := by
  change execDlTick x s = .next t at h
  unfold execDlTick at h
  split at h
  · cases h
  · rename_i y s' hd
    obtain ⟨rest, hr, rfl⟩ := dlTick_ok hd
    cases h; exact ⟨y, rest, hr, rfl⟩

/-- A completed `CNT_GATE` writes the draw counter alone, and hands over the gate. -/
theorem exec_cntGate_ok {s t : State} (h : exec .cntGate s = .next t) :
    t = s.bump.hand (.gate (counterGate s.draws s.cnt s.derived.psamp s.derived.duty)) := by
  change execCntGate s = .next t at h
  unfold execCntGate at h
  split at h
  · cases h
  · rename_i g s' hg
    obtain ⟨-, rfl, rfl⟩ := cntGate_ok hg
    cases h; rfl

/-- A completed `MIX_OUT` writes the draw counter alone, and hands over a sample. -/
theorem exec_mixOut_ok {mixed osc : F32} {eg cg : Bool} {s t : State}
    (h : exec (.mixOut mixed eg osc cg) s = .next t) : ∃ out, t = s.bump.hand (.sample out) := by
  change execMixOut mixed eg osc cg s = .next t at h
  unfold execMixOut at h
  split at h
  · cases h
  · rename_i out s' hm
    obtain ⟨-, -, rfl, -⟩ := mixOut_ok hm
    cases h; exact ⟨out, rfl⟩

/-! ## What a completed event is -/

/-- With an event to come, a step is that event. -/
theorem step_of_inputs {s : State} {x : Input} {rest : List Input} (h : s.inputs = x :: rest) :
    step s = accept x (s.withInputs rest) := by
  unfold step; rw [h]

/-- A rejected word that completes sets bits of `ERR` and does nothing else. -/
theorem takeReject_ok {r : Reject} {s t : State} (h : takeReject r s = .next t) :
    ∃ e, t = { s with err := s.err ||| e } := by
  cases r with
  | illegalP => cases h; exact ⟨illP, rfl⟩
  | illegalC => cases h; exact ⟨illC, rfl⟩
  | unusedUnitCode => cases h
  | strayOperandBits => cases h

/-- A completed event is an instruction, an illegal word or a reset. -/
theorem accept_cases {x : Input} {s t : State} (h : accept x s = .next t) :
    (∃ i, exec i s = .next t) ∨ (∃ e, t = { s with err := s.err ||| e }) ∨
    (isReset x = true ∧ ∃ cfgIn init seedIn, resetOp cfgIn init seedIn s = .next t) := by
  cases x with
  | reset cfgIn init seedIn => exact Or.inr (Or.inr ⟨rfl, _, _, _, h⟩)
  | cmd w =>
    change runWord w s = .next t at h
    unfold runWord at h
    split at h
    · exact Or.inl ⟨_, h⟩
    · exact Or.inr (Or.inl (takeReject_ok h))

/-! ## The seed -/

/-- A word that a left shift of 5 or 13 cancels is zero: the multiple `2^k - 1` of it is a multiple of `2^32`. -/
theorem eq_zero_of_xor_shiftLeft {x : BitVec 32} {k : Nat} (hk : k = 5 ∨ k = 13) (h : x ^^^ (x <<< k) = 0#32) :
    x = 0#32 := by
  have he := congrArg BitVec.toNat (BitVec.xor_eq_zero_iff.1 h)
  rw [BitVec.toNat_shiftLeft, Nat.shiftLeft_eq] at he
  apply BitVec.eq_of_toNat_eq
  have hlt := x.isLt
  rcases hk with rfl | rfl <;> simp only [BitVec.toNat_ofNat] <;> omega

/-- A word that a right shift of 17 cancels is zero. -/
theorem eq_zero_of_xor_shiftRight {x : BitVec 32} (h : x ^^^ (x >>> 17) = 0#32) : x = 0#32 := by
  have he := congrArg BitVec.toNat (BitVec.xor_eq_zero_iff.1 h)
  rw [BitVec.toNat_ushiftRight, Nat.shiftRight_eq_div_pow] at he
  apply BitVec.eq_of_toNat_eq
  simp only [BitVec.toNat_ofNat]; omega

/-- The generator never reaches zero from another seed (R173). -/
theorem prngStep_ne_zero {seed : BitVec 32} (h : seed ≠ 0#32) : prngStep seed ≠ 0#32 := fun h0 =>
  h (eq_zero_of_xor_shiftLeft (Or.inr rfl) (eq_zero_of_xor_shiftRight (eq_zero_of_xor_shiftLeft (Or.inl rfl) h0)))

/-! ## The invariants, operation by operation -/

/-- The invariants do not read these fields. -/
theorem inv_of_frame {s t : State} (hi : Inv s) (ht : t = { s with
      envPh := t.envPh, oscPh := t.oscPh, fmPh := t.fmPh, cnt := t.cnt, err := t.err, cOut := t.cOut
      pOk := t.pOk, draws := t.draws, unitOut := t.unitOut, inputs := t.inputs }) : Inv t := by
  rw [ht]
  exact inv_congr hi rfl rfl rfl rfl hi.derivedCache hi.seedNonzero hi.delayNonempty hi.delayBounded

/-- An accepted push keeps them: the entry it lists is the one the moved cursor now holds. -/
theorem inv_pushed {s : State} (hi : Inv s) (p : Snapshot) (hc : queueCount s.wr s.rd ≠ 200) :
    Inv { s with pq := s.pq.write (ringIndex s.wr) p, wr := cursorNext s.wr, pOk := true } := by
  have hle := hi.countLe
  have hlt : queueCount s.wr s.rd < 200 := by simp only [Config.cap] at hle; omega
  have hnext := queueCount_next hlt
  refine { hi with
    wrRange := Nat.mod_lt _ (by decide)
    countLe := by simp only [hnext, Config.cap]; omega
    ringWf := write_wf (ringIndex_lt _) hi.ringWf
    liveWritten := ?_
    heldOnly := ?_ }
  · intro i hlti
    simp only [hnext] at hlti ⊢
    by_cases he : i = queueCount s.wr s.rd
    · rw [he, ringIndex_count, read_write_same]; rfl
    · have hold : i < queueCount s.wr s.rd := by omega
      rw [read_write_other _ _ (ringIndex_push_ne hlt hold)]
      exact hi.liveWritten i hold
  · intro e he
    simp only [hnext]
    rcases mem_write he with hnew | hold
    · exact ⟨_, Nat.lt_succ_self _, hnew.trans (ringIndex_count _ _).symm⟩
    · obtain ⟨i, hlti, hidx⟩ := hi.heldOnly e hold
      exact ⟨i, Nat.lt_succ_of_lt hlti, hidx⟩

/-- A shift by one place keeps the length of the delay line. -/
theorem length_shifted {s : State} {y : F32} {rest : List F32} (h : s.dl = y :: rest) (x : F32) :
    (rest ++ [x]).length = s.dl.length := by simp [h]

/-- Applying a snapshot keeps them: `MAP` refills the cache, and the length it derives is in range. -/
theorem inv_applied {s : State} (hi : Inv s) (p : Snapshot) : Inv (resizeIfChanged (mapOp { s with act := p })) := by
  have hb := delayLength_bounds (rawDelay s.draws (remap s.draws .e p) s.cfg)
  have hlen : (resizeIfChanged (mapOp { s with act := p })).dl.length = (mapRegs s.draws p s.cfg).dlLen :=
    length_resizeIfChanged hb.1 hb.2
  rw [resizeIfChanged_eq]
  exact inv_congr hi rfl rfl rfl rfl ⟨s.draws, rfl⟩ hi.seedNonzero (hlen ▸ hb.1) (hlen ▸ hb.2)

theorem execPush_keeps_inv {p : Snapshot} {s t : State} (hi : Inv s) (h : exec (.push p) s = .next t) : Inv t := by
  change execPush p s = .next t at h
  rcases execPush_cases p s with ⟨-, hp⟩ | ⟨hc, hp⟩ <;> rw [hp] at h <;> cases h
  · exact inv_of_frame hi rfl
  · exact inv_pushed hi p hc

theorem execFrame_keeps_inv {s t : State} (hi : Inv s) (h : exec .frame s = .next t) : Inv t := by
  rcases execFrame_cases h with ⟨-, rfl⟩ | ⟨p, -, -, rfl⟩
  · exact hi
  · exact inv_applied (inv_drained hi) p

theorem execTick_keeps_inv {s t : State} (hi : Inv s) (h : exec .tick s = .next t) : Inv t := by
  obtain ⟨old, rest, hd, -, -, ht⟩ := execTick_frame h
  have hlen := length_shifted hd (combMix s.draws (prngOut (prngStep s.seed)) s.derived.depth s.derived.fbg old)
  rw [ht]
  exact inv_congr hi rfl rfl rfl rfl hi.derivedCache (prngStep_ne_zero hi.seedNonzero) (hlen ▸ hi.delayNonempty)
    (hlen ▸ hi.delayBounded)

theorem execDrainLatest_keeps_inv {s t : State} (hi : Inv s) (h : exec .drainLatest s = .next t) : Inv t := by
  obtain ⟨r, s', hd, rfl⟩ := exec_drainLatest_ok h
  rcases drainLatest_ok hd with ⟨-, -, rfl⟩ | ⟨p, -, -, -, rfl⟩
  · exact inv_of_frame hi rfl
  · exact inv_of_frame (inv_drained hi) rfl

theorem execDlTick_keeps_inv {x : F32} {s t : State} (hi : Inv s) (h : exec (.dlTick x) s = .next t) : Inv t := by
  obtain ⟨y, rest, hd, rfl⟩ := exec_dlTick_ok h
  have hlen := length_shifted hd x
  exact inv_congr hi rfl rfl rfl rfl hi.derivedCache hi.seedNonzero (hlen ▸ hi.delayNonempty) (hlen ▸ hi.delayBounded)

/-- Every instruction keeps the invariants. -/
theorem exec_keeps_inv {i : Instr} {s t : State} (hi : Inv s) (h : exec i s = .next t) : Inv t := by
  cases i with
  | nopP | nopC => cases h; exact hi
  | push p => exact execPush_keeps_inv hi h
  | frame => exact execFrame_keeps_inv hi h
  | tick => exact execTick_keeps_inv hi h
  | drainLatest => exact execDrainLatest_keeps_inv hi h
  | map =>
    cases h
    exact inv_congr hi rfl rfl rfl rfl ⟨s.draws, rfl⟩ hi.seedNonzero hi.delayNonempty hi.delayBounded
  | dlResize len =>
    cases h
    refine inv_congr hi rfl rfl rfl rfl hi.derivedCache hi.seedNonzero ?_ ?_ <;>
      simp only [hand_dl, resizeDelay_dl, length_zeros]
    · exact clampLength_pos len
    · exact clampLength_le len
  | noiseStep =>
    cases h
    exact inv_congr hi rfl rfl rfl rfl hi.derivedCache (prngStep_ne_zero hi.seedNonzero) hi.delayNonempty hi.delayBounded
  | dlTick x => exact execDlTick_keeps_inv hi h
  | envStep | oscStep => cases h; exact inv_of_frame hi rfl
  | cntGate => rw [exec_cntGate_ok h]; exact inv_of_frame hi rfl
  | mixOut mixed eg osc cg =>
    obtain ⟨out, rfl⟩ := exec_mixOut_ok h
    exact inv_of_frame hi rfl

/-- A state with an empty queue, fresh derived registers and a delay line of the derived length meets the invariants. -/
theorem inv_of_empty {s : State} {n : Nat} (hcfg : legalCfg s.cfg = true) (hw : s.wr = 0) (hr : s.rd = 0)
    (hq : s.pq = []) (hmap : s.derived = mapRegs n s.act s.cfg) (hseed : s.seed ≠ 0#32) (hdl : Synced s) : Inv s := by
  have hc : queueCount s.wr s.rd = 0 := by rw [hw, hr]; exact queueCount_self 0
  have hb : 1 ≤ s.derived.dlLen ∧ s.derived.dlLen ≤ Config.delayMax := by rw [hmap]; exact delayLength_bounds _
  rw [← hdl] at hb
  exact {
    cfgLegal := hcfg
    wrRange := by rw [hw]; decide
    rdRange := by rw [hr]; decide
    countLe := by rw [hc]; exact Nat.zero_le _
    ringWf := by rw [hq]; rfl
    liveWritten := by rw [hc]; exact fun i hlt => absurd hlt (Nat.not_lt_zero i)
    heldOnly := by rw [hq]; exact fun e he => absurd he List.not_mem_nil
    derivedCache := ⟨n, hmap⟩
    seedNonzero := hseed
    delayNonempty := hb.1
    delayBounded := hb.2 }

/-- A reset that is not refused establishes the invariants and the derived length, from any state. -/
theorem resetOp_inv {cfgIn : BitVec 8} {init : BitVec 192} {seedIn : BitVec 32} {s t : State}
    (h : resetOp cfgIn init seedIn s = .next t) : Inv t ∧ Synced t := by
  rcases resetOp_cases cfgIn init seedIn s with ⟨-, hr⟩ | ⟨hcfg, u, hr, rfl⟩ <;> rw [hr] at h <;> cases h
  have hb := delayLength_bounds (rawDelay s.draws (remap s.draws .e (Snapshot.ofWord init)) cfgIn)
  have hsync := (length_zeros _).trans (clampLength_eq hb.1 hb.2)
  exact ⟨inv_of_empty hcfg rfl rfl rfl rfl (seedOf_ne_zero seedIn) hsync, hsync⟩

/-- Every event that completes keeps the invariants. -/
theorem accept_keeps_inv {x : Input} {s t : State} (hi : Inv s) (h : accept x s = .next t) : Inv t := by
  rcases accept_cases h with ⟨i, hx⟩ | ⟨e, rfl⟩ | ⟨-, cfgIn, init, seedIn, hx⟩
  · exact exec_keeps_inv hi hx
  · exact inv_of_frame hi rfl
  · exact (resetOp_inv hx).1

/-- Settles O9: the event to come keeps the invariants, and taking it off the list touches none of them. -/
theorem stepKeepsInvariant : Obligations.StepKeepsInvariant := by
  intro s t hi h
  cases hs : s.inputs with
  | nil => unfold step at h; rw [hs] at h; cases h; exact hi
  | cons x rest =>
    rw [step_of_inputs hs] at h
    exact accept_keeps_inv (inv_of_frame hi rfl) h

/-- Settles O8: nothing is held, and the delay line has the length just derived. -/
theorem resetMeetsInvariant : Obligations.ResetMeetsInvariant := by
  have hsync : Synced State.reset := length_zeros _
  exact ⟨inv_of_empty (n := 0) (by decide) rfl rfl rfl rfl (by decide) hsync, hsync⟩

/-- A `FRAME` leaves the delay line at the derived length. -/
theorem execFrame_keeps_synced {s t : State} (hs : Synced s) (h : exec .frame s = .next t) : Synced t := by
  rcases execFrame_cases h with ⟨-, rfl⟩ | ⟨p, -, -, rfl⟩
  · exact hs
  · have hb := delayLength_bounds (rawDelay s.draws (remap s.draws .e p) s.cfg)
    have hlen := length_resizeIfChanged (s := mapOp { s with pq := [], rd := s.wr, act := p }) hb.1 hb.2
    rw [resizeIfChanged_eq]; exact hlen

/-- Every word of a port keeps the delay line at the derived length. -/
theorem port_keeps_synced {x : Input} {s t : State} (hx : isPort x = true) (hs : Synced s)
    (h : accept x s = .next t) : Synced t := by
  rcases port_accept_cases hx h with rfl | ⟨e, rfl⟩ | ⟨p, -, hp⟩ | ⟨-, hf⟩ | ⟨-, ht⟩
  · exact hs
  · exact hs
  · change execPush p s = .next t at hp
    rcases execPush_cases p s with ⟨-, he⟩ | ⟨-, he⟩ <;> rw [he] at hp <;> cases hp <;> exact hs
  · exact execFrame_keeps_synced hs hf
  · obtain ⟨old, rest, hd, -, -, he⟩ := execTick_frame ht
    rw [he]
    exact (length_shifted hd _).trans hs

/-- Settles O10: the words of a port by `port_keeps_synced`, a reset from any state. -/
theorem commandsKeepDelayLength : Obligations.CommandsKeepDelayLength := by
  intro s t x rest _ hs hin hx h
  rw [step_of_inputs hin] at h
  rcases hx with hp | hr
  · exact port_keeps_synced (s := s.withInputs rest) hp hs h
  · cases x with
    | cmd w => cases hr
    | reset cfgIn init seedIn => exact (resetOp_inv h).2

end Sys2Proof.Proofs

/-! PROOF. The Parameter Channel as a bounded list, `FRAME` and `DRAIN_LATEST` in full (41_param_channel.md R136, R139,
47_synthesis_engine.md R224), `TICK` as its unit operations (R228), the contract faults (60_exceptions.md R250), and what the
words of each port may write (R266). -/

namespace Sys2Proof.Proofs

open Sys2Proof.Machine Sys2Proof.Safety Sys2Proof.Laws
open Host (Outcome)

/-! ## DRAIN_LATEST, FRAME and PUSH -/

/-- `DRAIN_LATEST` with nothing pending. -/
theorem exec_drainLatest_empty {s : State} (h : queueCount s.wr s.rd = 0) :
    exec .drainLatest s = .next { s with unitOut := .snapshot none } := by
  change execDrainLatest s = _
  unfold execDrainLatest; rw [drainLatest_empty h]; rfl

/-- `DRAIN_LATEST` with a snapshot pending. -/
theorem exec_drainLatest_pending {s : State} {p : Snapshot} (h : queueCount s.wr s.rd ≠ 0)
    (hp : s.pq.read (newestIndex s.wr) = some p) :
    exec .drainLatest s = .next { s with pq := [], rd := s.wr, unitOut := .snapshot (some p) } := by
  change execDrainLatest s = _
  unfold execDrainLatest; rw [drainLatest_pending h hp]; rfl

/-- Settles O15: the two answers of `DRAIN_LATEST`. -/
theorem drainLatestTakesTheNewest : Obligations.DrainLatestTakesTheNewest :=
  ⟨fun _ h => exec_drainLatest_empty h, fun _ _ h hp => exec_drainLatest_pending h hp⟩

/-- The delay line `FRAME` leaves: zeros of the derived length, if that length is another. -/
theorem resizeIfChanged_dl {s : State} (h1 : 1 ≤ s.derived.dlLen) (h2 : s.derived.dlLen ≤ Config.delayMax) :
    (resizeIfChanged s).dl = if s.derived.dlLen ≠ s.dl.length then zeros s.derived.dlLen else s.dl := by
  unfold resizeIfChanged
  split
  · rw [resizeDelay_dl, clampLength_eq h1 h2]
  · rfl

/-- Settles O21: `FRAME` on the two answers of `DRAIN_LATEST`; a derived length is in range, so the resize does not
clamp it. -/
theorem frameAppliesAndResizes : Obligations.FrameAppliesAndResizes := by
  refine ⟨fun s h => ?_, fun s p h hp => ?_⟩
  · change execFrame s = _
    unfold execFrame; rw [drainLatest_empty h]
  · have hb := delayLength_bounds (rawDelay s.draws (remap s.draws .e p) s.cfg)
    have hdl := resizeIfChanged_dl (s := mapOp { s with pq := [], rd := s.wr, act := p }) hb.1 hb.2
    change execFrame s = _
    unfold execFrame; rw [drainLatest_pending h hp]
    exact congrArg Outcome.next ((resizeIfChanged_eq _).trans (by rw [hdl]; rfl))

/-- The list of entries held is empty when the cursors are equal. -/
theorem held_eq_nil {s : State} (h : queueCount s.wr s.rd = 0) : held s = [] := by
  unfold held; rw [h]; rfl

/-- `PUSH` on the list of entries held. -/
theorem push_held {s : State} (hi : Inv s) (p : Snapshot) : ∃ t, exec (.push p) s = .next t ∧
    ((held s).length = 200 → t.pOk = false ∧ held t = held s) ∧
    ((held s).length ≠ 200 → t.pOk = true ∧ held t = held s ++ [p]) := by
  rw [length_held hi]
  rcases execPush_cases p s with ⟨hc, he⟩ | ⟨hc, he⟩
  · exact ⟨_, he, fun _ => ⟨rfl, rfl⟩, fun hn => absurd hc hn⟩
  · exact ⟨_, he, fun hn => absurd hn hc, fun _ => ⟨rfl, held_push hi hc rfl⟩⟩

/-- `DRAIN_LATEST` on the list of entries held. -/
theorem drainLatest_held {s : State} (hi : Inv s) : ∃ t, exec .drainLatest s = .next t ∧ held t = [] ∧
    t.unitOut = .snapshot (held s).getLast? := by
  by_cases h : queueCount s.wr s.rd = 0
  · refine ⟨_, exec_drainLatest_empty h, held_eq_nil h, ?_⟩
    rw [held_eq_nil h]; rfl
  · obtain ⟨p, hp⟩ := newest_written hi h
    refine ⟨_, exec_drainLatest_pending h hp, held_eq_nil (queueCount_self _), ?_⟩
    rw [getLast?_held h hp]

/-- Settles O16: the abstraction commutes with reset, `PUSH` and `DRAIN_LATEST`. -/
theorem channelIsABoundedList : Obligations.ChannelIsABoundedList :=
  ⟨held_eq_nil (queueCount_self 0), fun p _ hi => push_held hi p, fun _ hi => drainLatest_held hi⟩

/-! ## Faults off the invariants -/

/-- The reserved code of `CFG.MODE` names no path. -/
theorem cfgMode_reserved {cfg : BitVec 8} (h : cfg.extractLsb' 0 2 = 0b11#2) : cfgMode cfg = none := by
  unfold cfgMode; rw [h]; rfl

theorem execTick_dlEmpty {s : State} (hd : s.dl = []) : execTick s = .fault .dlEmpty := by
  simp [execTick, noiseStep, hd]

theorem execTick_psampZero {s : State} (hd : s.dl ≠ []) (hp : s.derived.psamp = 0) :
    execTick s = .fault .psampZero := by
  obtain ⟨old, rest, hd⟩ := List.exists_cons_of_ne_nil hd
  simp [execTick, noiseStep, hd, dlTick, shiftDelay, envStep, oscStep, cntGate, hp]

theorem execTick_modeReserved {s : State} (hd : s.dl ≠ []) (hp : s.derived.psamp ≠ 0) (hm : cfgMode s.cfg = none) :
    execTick s = .fault .modeReserved := by
  obtain ⟨old, rest, hd⟩ := List.exists_cons_of_ne_nil hd
  simp [execTick, noiseStep, hd, dlTick, shiftDelay, envStep, oscStep, cntGate, hp, mixOut, hm]

/-- A pending entry that holds no value cannot be drained. -/
theorem drainLatest_stale {s : State} (hc : queueCount s.wr s.rd ≠ 0) (hr : s.pq.read (newestIndex s.wr) = none) :
    drainLatest s = .error .staleEntry := by
  simp [drainLatest, hc, hr]

/-- Settles O12: each fault is raised by the first operation of its instruction that meets the broken invariant. -/
theorem contractFaultsOffTheInvariants : Obligations.ContractFaultsOffTheInvariants := by
  refine ⟨fun s hd => execTick_dlEmpty hd, fun s hd hp => execTick_psampZero hd hp,
    fun s hd hp hm => execTick_modeReserved hd hp (cfgMode_reserved hm), fun s hp => ?_, fun mixed osc eg cg s hm => ?_,
    fun s hc hr => ⟨?_, ?_⟩⟩
  · change execCntGate s = _
    simp [execCntGate, cntGate, hp]
  · change execMixOut mixed eg osc cg s = _
    simp [execMixOut, mixOut, cfgMode_reserved hm]
  · change execFrame s = _
    unfold execFrame; rw [drainLatest_stale hc hr]
  · change execDrainLatest s = _
    unfold execDrainLatest; rw [drainLatest_stale hc hr]

/-! ## TICK -/

/-- `DL_TICK` as an event does not read the result handed over before it. -/
theorem exec_dlTick_hand {x y : F32} {s s' : State} (r : UnitOut) (h : dlTick x s = .ok (y, s')) :
    exec (.dlTick x) (s.hand r) = .next (s'.hand (.sample y)) := by
  obtain ⟨rest, hd, rfl⟩ := dlTick_ok h
  change execDlTick x (s.hand r) = _
  simp only [execDlTick, dlTick, hand_dl, hd, shiftDelay]
  rfl

/-- Nor does `CNT_GATE`. -/
theorem exec_cntGate_hand {g : Bool} {s s' : State} (r : UnitOut) (h : cntGate s = .ok (g, s')) :
    exec .cntGate (s.hand r) = .next (s'.hand (.gate g)) := by
  obtain ⟨hp, rfl, rfl⟩ := cntGate_ok h
  change execCntGate (s.hand r) = _
  simp only [execCntGate, cntGate, hand_derived, hp, if_false]
  rfl

/-- Nor does `MIX_OUT`. -/
theorem exec_mixOut_hand {mixed osc out : F32} {eg cg : Bool} {s s' : State} (r : UnitOut)
    (h : mixOut mixed eg osc cg s = .ok (out, s')) :
    exec (.mixOut mixed eg osc cg) (s.hand r) = .next (s'.hand (.sample out)) := by
  obtain ⟨mode, hm, rfl, rfl⟩ := mixOut_ok h
  change execMixOut mixed eg osc cg (s.hand r) = _
  simp only [execMixOut, mixOut, hand_cfg, hm]
  rfl

/-- The answers of the unit operations inside a completed `TICK`. -/
theorem execTick_units {s t : State} (h : execTick s = .next t) :
    ∃ (old out : F32) (cg : Bool) (s1 s2 s5 s6 : State), s1 = (noiseStep s).2 ∧ s1.dl.head? = some old ∧
      dlTick (combMix s1.draws (noiseStep s).1 s1.derived.depth s1.derived.fbg old) s1.bump = .ok (old, s2) ∧
      cntGate (oscStep (envStep s2).2).2 = .ok (cg, s5) ∧
      mixOut (combMix s1.draws (noiseStep s).1 s1.derived.depth s1.derived.fbg old) (envStep s2).1
        (oscStep (envStep s2).2).1 cg s5 = .ok (out, s6) ∧
      t = { s6 with cnt := s6.cnt + 1#32, cOut := out } := by
  unfold execTick at h
  split at h
  rename_i nz s1 hn
  obtain ⟨rfl, rfl⟩ : nz = (noiseStep s).1 ∧ s1 = (noiseStep s).2 := by rw [hn]; exact ⟨rfl, rfl⟩
  split at h
  · cases h
  · rename_i old rest hd
    dsimp only at h
    split at h
    · cases h
    · rename_i y s2 hdl
      obtain ⟨_, hy, -⟩ := dlTick_ok hdl
      rw [bump_dl, hd] at hy
      cases hy
      split at h
      · cases h
      · rename_i cg s5 hcg
        split at h
        · cases h
        · rename_i out s6 hmix
          cases h
          exact ⟨old, out, cg, _, s2, s5, s6, rfl, congrArg List.head? hd, hdl, hcg, hmix, rfl⟩

/-- Settles O23: the unit operations inside a completed `TICK` (`execTick_units`) answer the same as events, whose results
handed over `TICK` does not write. -/
theorem tickIsItsUnitOperations : Obligations.TickIsItsUnitOperations := by
  intro s t h
  obtain ⟨old, out, cg, s1, s2, s5, s6, h1, hold, h2, h5, h6, ht⟩ := execTick_units h
  obtain ⟨_, _, -, -, -, hframe⟩ := execTick_frame h
  have hout : s.unitOut = s6.unitOut := by
    rw [ht] at hframe
    exact (congrArg State.unitOut hframe).symm
  refine ⟨(noiseStep s).1, old, old, (oscStep (envStep s2).2).1, out, (envStep s2).1, cg,
    s1.hand (.sample (noiseStep s).1), s2.hand (.sample old), (envStep s2).2.hand (.gate (envStep s2).1),
    (oscStep (envStep s2).2).2.hand (.sample (oscStep (envStep s2).2).1), s5.hand (.gate cg), s6.hand (.sample out),
    ?_, rfl, hold, exec_dlTick_hand (.sample (noiseStep s).1) h2, rfl, rfl, rfl, rfl, rfl, rfl, exec_cntGate_hand _ h5, rfl,
    exec_mixOut_hand _ h6, rfl, ?_⟩
  · rw [h1]; rfl
  · rw [ht, hout]; rfl

/-! ## Words of the ports -/

/-- A port-P word with a code that port P does not accept. -/
theorem accept_illegalP {w : BitVec 196} (h0 : opP w ≠ 0x0#4) (h1 : opP w ≠ 0x1#4) (s : State) :
    accept (.cmd (.portP w)) s = .next { s with err := s.err ||| illP } := by
  simp only [accept, runWord, decode, decodeP, if_neg h0, if_neg h1]; rfl

/-- A port-C word that port C does not accept. -/
theorem accept_illegalC {w : BitVec 4} (h0 : w ≠ 0x0#4) (h2 : w ≠ 0x2#4) (h3 : w ≠ 0x3#4) (s : State) :
    accept (.cmd (.portC w)) s = .next { s with err := s.err ||| illC } := by
  simp only [accept, runWord, decode, decodeC, if_neg h0, if_neg h2, if_neg h3]; rfl

/-- Settles O4: the next event is a word its port rejects. -/
theorem illegalWordSetsItsStickyBitOnly : Obligations.IllegalWordSetsItsStickyBitOnly :=
  ⟨fun _ _ _ hin h0 h1 => (step_of_inputs hin).trans (accept_illegalP h0 h1 _),
    fun _ _ _ hin h0 h2 h3 => (step_of_inputs hin).trans (accept_illegalC h0 h2 h3 _)⟩

/-- What a word of port P does: nothing, a `PUSH`, or its sticky bit. -/
theorem portP_accept_cases {s t : State} {x : Input} (hx : isPortP x = true) (h : accept x s = .next t) :
    t = s ∨ (∃ p, exec (.push p) s = .next t) ∨ t = { s with err := s.err ||| illP } := by
  match x, hx with
  | .cmd (.portP w), _ =>
    by_cases h0 : opP w = 0x0#4
    · simp only [accept, runWord, decode, decodeP, if_pos h0] at h
      cases h; exact Or.inl rfl
    by_cases h1 : opP w = 0x1#4
    · simp only [accept, runWord, decode, decodeP, if_neg h0, if_pos h1] at h
      exact Or.inr (Or.inl ⟨_, h⟩)
    · rw [accept_illegalP h0 h1] at h
      cases h; exact Or.inr (Or.inr rfl)

/-- What a word of port C does: nothing, a `FRAME`, a `TICK`, or its sticky bit. -/
theorem portC_accept_cases {s t : State} {x : Input} (hx : isPortC x = true) (h : accept x s = .next t) :
    t = s ∨ (isFrame x = true ∧ exec .frame s = .next t) ∨ exec .tick s = .next t ∨
      t = { s with err := s.err ||| illC } := by
  match x, hx with
  | .cmd (.portC w), _ =>
    by_cases h0 : w = 0x0#4
    · subst h0; cases h; exact Or.inl rfl
    by_cases h2 : w = 0x2#4
    · subst h2; exact Or.inr (Or.inl ⟨rfl, h⟩)
    by_cases h3 : w = 0x3#4
    · subst h3; exact Or.inr (Or.inr (Or.inl h))
    · rw [accept_illegalC h0 h2 h3] at h
      cases h; exact Or.inr (Or.inr (Or.inr rfl))

/-- What `FRAME` keeps of the ring and of the registers that are not its own. -/
theorem execFrame_frame {s t : State} (h : exec .frame s = .next t) :
    (t.pq = s.pq ∨ t.pq = []) ∧ t.wr = s.wr ∧ t.pOk = s.pOk ∧ t.cfg = s.cfg ∧ t.err = s.err ∧ t.cnt = s.cnt := by
  rcases execFrame_cases h with ⟨-, rfl⟩ | ⟨p, -, -, rfl⟩
  · exact ⟨Or.inl rfl, rfl, rfl, rfl, rfl, rfl⟩
  · rw [resizeIfChanged_eq]
    exact ⟨Or.inr rfl, rfl, rfl, rfl, rfl, rfl⟩

/-- What `PUSH` may write. -/
theorem execPush_frame {p : Snapshot} {s t : State} (h : exec (.push p) s = .next t) :
    t = { s with pq := t.pq, wr := t.wr, pOk := t.pOk } := by
  change execPush p s = .next t at h
  rcases execPush_cases p s with ⟨-, hp⟩ | ⟨-, hp⟩ <;> rw [hp] at h <;> cases h <;> rfl

/-- What a port-P word may write. -/
theorem portP_frame {s t : State} {x : Input} (hx : isPortP x = true) (h : accept x s = .next t) :
    t = { s with pq := t.pq, wr := t.wr, pOk := t.pOk, err := t.err } ∧ t.err.getLsbD 1 = s.err.getLsbD 1 := by
  rcases portP_accept_cases hx h with rfl | ⟨p, hp⟩ | rfl
  · exact ⟨rfl, rfl⟩
  · have ht := execPush_frame hp
    rw [ht]; exact ⟨rfl, rfl⟩
  · exact ⟨rfl, by simp [illP]⟩

/-- What a port-C word leaves. -/
theorem portC_frame {s t : State} {x : Input} (hx : isPortC x = true) (h : accept x s = .next t) :
    (t.pq = s.pq ∨ (isFrame x = true ∧ t.pq = [])) ∧
      t.wr = s.wr ∧ t.pOk = s.pOk ∧ t.cfg = s.cfg ∧ t.err.getLsbD 0 = s.err.getLsbD 0 := by
  rcases portC_accept_cases hx h with rfl | ⟨hf, he⟩ | he | rfl
  · exact ⟨Or.inl rfl, rfl, rfl, rfl, rfl⟩
  · obtain ⟨hpq, hwr, hpOk, hcfg, herr, -⟩ := execFrame_frame he
    exact ⟨hpq.imp id fun h => ⟨hf, h⟩, hwr, hpOk, hcfg, by rw [herr]⟩
  · obtain ⟨old, rest, -, -, -, ht⟩ := execTick_frame he
    rw [ht]; exact ⟨Or.inl rfl, rfl, rfl, rfl, rfl⟩
  · exact ⟨Or.inl rfl, rfl, rfl, rfl, by simp [illC]⟩

/-- Settles O49: the frames of the two ports; a ring that lists nothing has no entry that was not there. -/
theorem agentsWriteOnlyTheirOwnState : Obligations.AgentsWriteOnlyTheirOwnState := by
  refine ⟨fun s t x hx h => portP_frame hx h, fun s t x hx h => ?_⟩
  obtain ⟨hpq, hrest⟩ := portC_frame hx h
  refine ⟨fun i p hr => ?_, fun hf => ?_, hrest⟩
  · rcases hpq with he | ⟨-, he⟩ <;> rw [he] at hr
    · exact hr
    · rw [read_nil] at hr; cases hr
  · rcases hpq with he | ⟨hf', -⟩
    · exact he
    · rw [hf] at hf'; cases hf'

/-- A `TICK` advances the counter. -/
theorem execTick_cnt {s t : State} (h : exec .tick s = .next t) : t.cnt = s.cnt + 1#32 := by
  obtain ⟨old, rest, -, -, -, ht⟩ := execTick_frame h
  rw [ht]

/-- Settles O50: `TICK` advances the counter, and no other word of a port writes it. -/
theorem counterCountsTicks : Obligations.CounterCountsTicks := by
  intro s t x hx h
  by_cases ht : isTick x = true
  · rw [if_pos ht]
    exact execTick_cnt ((accept_tick ht s).symm.trans h)
  rw [if_neg ht]
  rcases port_accept_cases hx h with rfl | ⟨e, rfl⟩ | ⟨p, -, hp⟩ | ⟨-, hf⟩ | ⟨ht', -⟩
  · rfl
  · rfl
  · rw [execPush_frame hp]
  · obtain ⟨-, -, -, -, -, hcnt⟩ := execFrame_frame hf
    exact hcnt
  · exact absurd ht' ht

/-- No instruction writes `CFG` or `ERR`. -/
theorem exec_keeps_cfg_err {i : Instr} {s t : State} (h : exec i s = .next t) : t.cfg = s.cfg ∧ t.err = s.err := by
  cases i with
  | nopP | nopC | map | dlResize | noiseStep | envStep | oscStep => cases h; exact ⟨rfl, rfl⟩
  | push p => rw [execPush_frame h]; exact ⟨rfl, rfl⟩
  | frame =>
    obtain ⟨-, -, -, hcfg, herr, -⟩ := execFrame_frame h
    exact ⟨hcfg, herr⟩
  | tick =>
    obtain ⟨old, rest, -, -, -, ht⟩ := execTick_frame h
    rw [ht]; exact ⟨rfl, rfl⟩
  | drainLatest =>
    obtain ⟨r, s', hd, rfl⟩ := exec_drainLatest_ok h
    rcases drainLatest_ok hd with ⟨-, -, rfl⟩ | ⟨p, -, -, -, rfl⟩ <;> exact ⟨rfl, rfl⟩
  | dlTick x => obtain ⟨y, rest, -, rfl⟩ := exec_dlTick_ok h; exact ⟨rfl, rfl⟩
  | cntGate => rw [exec_cntGate_ok h]; exact ⟨rfl, rfl⟩
  | mixOut mixed eg osc cg => obtain ⟨out, rfl⟩ := exec_mixOut_ok h; exact ⟨rfl, rfl⟩

/-- Settles O51: an instruction writes neither, and an illegal word only sets bits. -/
theorem onlyResetChangesCfgOrClearsErr : Obligations.OnlyResetChangesCfgOrClearsErr := by
  intro s t x hx h
  rcases accept_cases h with ⟨i, hi⟩ | ⟨e, rfl⟩ | ⟨hr, -⟩
  · obtain ⟨hcfg, herr⟩ := exec_keeps_cfg_err hi
    exact ⟨hcfg, fun k hk => by rw [herr]; exact hk⟩
  · exact ⟨rfl, fun k hk => by simp [hk]⟩
  · rw [hx] at hr; cases hr

end Sys2Proof.Proofs

/-! PROOF. The ranges of the derived registers and of the phases: `REMAP` (42_param_mapper.md R151), the exponential delay
length (R160), the FM phase (45_oscillator_fm.md R198) and the envelope phase (46_envelope_gate.md R213, R215). -/

namespace Sys2Proof.Proofs

open Sys2Proof.Machine Sys2Proof.Safety Sys2Proof.Laws

/-! ## Ranges as facts about values -/

/-- A value between two bounds is no NaN and is ordered as they are. -/
theorem between_iff {lo hi x : F32} (hlo : isNaN lo = false) (hhi : isNaN hi = false) :
    between lo hi x = true ↔ isNaN x = false ∧ scaled lo ≤ scaled x ∧ scaled x ≤ scaled hi := by
  simp only [between, Bool.and_eq_true, fle_iff, hlo, hhi, true_and]
  tauto

/-- A phase is in range when its value is. -/
theorem phaseInRange_iff {x : F32} :
    phaseInRange x = true ↔ isNaN x = false ∧ 0 ≤ scaled x ∧ scaled x < scaled twoPi := by
  have hz : scaled fZero = 0 := by decide
  have hn : isNaN fZero = false ∧ isNaN twoPi = false := by decide
  simp only [phaseInRange, Bool.and_eq_true, fle_iff, flt_iff, hn, hz, true_and]
  tauto

/-- A value of at most a finite magnitude is finite. -/
theorem finite_of_mag_le {x : F32} {hi : Nat} (hhi : hi < infBits) (hm : mag x ≤ magBits hi) : isFinite x = true := by
  rw [mag_eq, magBits_le] at hm
  exact (isFinite_iff x).2 (lt_of_le_of_lt hm hhi)

/-- A value below a representable magnitude is at most the one before it. -/
theorem le_magBits_of_lt {x : F32} {m : Nat} (h0 : 0 ≤ scaled x) (h : scaled x < magBits (m + 1)) :
    scaled x ≤ magBits m := by
  have hx := scaled_natAbs x
  rw [mag_eq] at hx
  have hlow : low31 x < m + 1 := magBits_lt.1 (by omega)
  have hle := magBits_le.2 (Nat.le_of_lt_succ hlow)
  omega

/-- What a rounded result with a representable bound is: finite, not below zero, at most the bound. -/
theorem pack_range {x : F32} {lo hi : Nat} (hhi : hi < infBits)
    (h : ∃ b m, x = pack b m ∧ lo ≤ m ∧ m ≤ hi ∧ (b = true → m = 0)) :
    isFinite x = true ∧ (magBits lo : Int) ≤ scaled x ∧ scaled x ≤ magBits hi := by
  obtain ⟨b, m, rfl, hlo, hle, hb⟩ := h
  have h31 : m < 2 ^ 31 := by simp only [infBits] at hhi; omega
  rw [scaled_pack_nonneg h31 hb]
  exact ⟨isFinite_pack (by omega), by exact_mod_cast magBits_le.2 hlo, by exact_mod_cast magBits_le.2 hle⟩

/-! ## REMAP -/

/-- A quotient is at most a representable bound in magnitude, if the exact one is. -/
theorem fdiv_mag_le {nan x y : F32} {hi : Nat} (hx : isFinite x = true) (hy : isFinite y = true) (hy0 : 0 < mag y)
    (h : mag x * 2 ^ 149 ≤ magBits hi * mag y) : mag (fdiv nan x y) ≤ magBits hi := by
  have hyz : isZero y = false := by
    rw [← Bool.not_eq_true, isZero_iff]
    intro hz; rw [mag_eq, hz, magBits_zero] at hy0; exact Nat.lt_irrefl _ hy0
  simp only [fdiv, not_nan_of_finite hx, not_nan_of_finite hy, not_inf_of_finite hx, not_inf_of_finite hy, hyz,
    Bool.or_self, Bool.false_eq_true, if_false]
  rw [mag_pack (roundMag_lt_31 _ _)]
  exact magBits_le.2 (roundMag_le_of hy0 h)

/-- `REMAP` of a control in `[-1, 1]`: half of it is in `[-0.5, 0.5]`, and the sum with `0.5` in `[0, 1]`. -/
theorem remap_range {n : Nat} {ctl : Config.Ctl} {p : Snapshot}
    (h : between 0xBF800000#32 0x3F800000#32 (control p ctl) = true) :
    isFinite (remap n ctl p) = true ∧ 0 ≤ scaled (remap n ctl p) ∧ scaled (remap n ctl p) ≤ 2 ^ 149 := by
  obtain ⟨-, hlo, hhi⟩ := (between_iff (by decide) (by decide)).1 h
  rw [show scaled 0xBF800000#32 = -2 ^ 149 by decide] at hlo
  rw [show scaled 0x3F800000#32 = 2 ^ 149 by decide] at hhi
  have hone : magBits 0x3F800000 = 2 ^ 149 := by decide
  have hhalf : magBits 0x3F000000 = 2 ^ 148 := by decide
  have hx := scaled_natAbs (control p ctl)
  have hxle : mag (control p ctl) ≤ 2 ^ 149 := by omega
  have hq := fdiv_mag_le (nan := Config.nanAt n (.remapDiv ctl)) (x := control p ctl) (y := fTwo) (hi := 0x3F000000)
    (finite_of_mag_le (by decide) (hone ▸ hxle)) (by decide) (by decide)
    (by rw [hhalf, show mag fTwo = 2 ^ 150 by decide]; omega)
  have hqs := scaled_natAbs (fdiv (Config.nanAt n (.remapDiv ctl)) (control p ctl) fTwo)
  have hqf := finite_of_mag_le (by decide) hq
  rw [hhalf] at hq
  have hsum := pack_range (by decide) (fadd_range (nan := Config.nanAt n (.remapAdd ctl)) (lo := 0) (hi := 0x3F800000)
    hqf (y := fHalf) (by decide) (by decide)
    (by rw [magBits_zero, show scaled fHalf = 2 ^ 148 by decide]; omega)
    (by rw [hone, show scaled fHalf = 2 ^ 148 by decide]; omega))
  rwa [magBits_zero, hone] at hsum

/-- Settles O30, by `remap_range`. -/
theorem remapIntoUnitInterval : Obligations.RemapIntoUnitInterval := by
  intro n ctl p h
  obtain ⟨hf, hlo, hhi⟩ := remap_range (n := n) h
  exact (between_iff (by decide) (by decide)).2 ⟨not_nan_of_finite hf, hlo, hhi⟩

/-! ## The exponential delay length -/

/-- `fround` does not pass an integer bound that is representable. -/
theorem scaled_fround_le {x : F32} {k m : Nat} (hx : isFinite x = true) (hm : magBits m = k * 2 ^ 149)
    (h : scaled x ≤ k * 2 ^ 149) : scaled (fround x) ≤ k * 2 ^ 149 := by
  unfold fround
  rw [if_pos hx, scaled_pack (roundMag_lt_31 _ _)]
  split
  · omega
  · rename_i hs
    have hle : (mag x : Int) ≤ k * 2 ^ 149 := by simpa only [scaled, if_neg hs] using h
    have hr : magBits (roundMag ((mag x + 2 ^ 148) / 2 ^ 149 * 2 ^ 149) 1) ≤ magBits m :=
      magBits_le.2 (roundMag_le_of Nat.one_pos (by omega))
    omega

/-- `f2i_sat` does not pass an integer bound below the infinity's value. -/
theorem f2iSat_le_of_scaled {x : F32} {k hi : Nat} (hinf : k < 2 ^ 128) (h : scaled x ≤ k * 2 ^ 149) :
    f2iSat x hi ≤ k := by
  unfold f2iSat
  split
  · exact Nat.zero_le k
  · rename_i h0
    simp only [Bool.or_eq_true, decide_eq_true_eq, not_or] at h0
    have hx := scaled_natAbs x
    split
    · rename_i h1
      rcases Bool.or_eq_true_iff.1 h1 with h1 | h1
      · rw [mag_eq, (isInf_iff x).1 h1, show magBits infBits = 2 ^ 128 * 2 ^ 149 by decide] at hx
        omega
      · have := of_decide_eq_true h1
        omega
    · omega

/-- `fexp2` of a value in `[0, 4]` is a finite value of at most 16, since `fexp2` is monotone and fixed at both ends. -/
theorem fexp2_le_16 {x : F32} (hx : isNaN x = false) (h0 : 0 ≤ scaled x) (h4 : scaled x ≤ scaled fFour) :
    isFinite (fexp2 x) = true ∧ scaled (fexp2 x) ≤ 16 * 2 ^ 149 := by
  have e0 : fexp2 fZero = fOne := rfl
  have e4 : fexp2 fFour = 0x41800000#32 := rfl
  have hlo := Config.exp2Fn.mono fZero x (by decide) hx h0
  have hhi := Config.exp2Fn.mono x fFour hx (by decide) h4
  change scaled (fexp2 fZero) ≤ scaled (fexp2 x) at hlo
  change scaled (fexp2 x) ≤ scaled (fexp2 fFour) at hhi
  rw [e0, show scaled fOne = 2 ^ 149 by decide] at hlo
  rw [e4] at hhi
  refine ⟨finite_of_range (by decide) (by omega) hhi, ?_⟩
  rwa [show scaled 0x41800000#32 = 16 * 2 ^ 149 by decide] at hhi

/-- The exponent of the exponential delay length, four times a remapped control, is in `[0, 4]`. -/
theorem rawExponent_range {nan x : F32} (hx : isFinite x = true) (h0 : 0 ≤ scaled x) (h1 : scaled x ≤ 2 ^ 149) :
    isFinite (fmul nan x fFour) = true ∧ 0 ≤ scaled (fmul nan x fFour) ∧ scaled (fmul nan x fFour) ≤ scaled fFour := by
  have h4 : scaled fFour = 2 ^ 151 := by decide
  have hm : (magBits 0x40800000 : Int) = scaled fFour := by decide
  have h := pack_range (by decide) (fmul_range (nan := nan) (lo := 0) (hi := 0x40800000) hx (y := fFour) (by decide) h0
    (by decide) (by decide) (by rw [magBits_zero, h4]; omega) (by rw [hm, h4]; omega))
  rwa [magBits_zero, hm] at h

/-- Settles O31: the exponent is in `[0, 4]`, so `raw` is at most 16, and neither rounding passes 16. -/
theorem expDelayBetween1And16 : Obligations.ExpDelayBetween1And16 := by
  intro n act cfg hcfg he
  obtain ⟨hf, h0, h1⟩ := remap_range (n := n) (ctl := .e) (p := act) he
  obtain ⟨hxf, hx0, hx4⟩ := rawExponent_range (nan := Config.nanAt n .rawMul) hf h0 h1
  obtain ⟨hrf, hr⟩ := fexp2_le_16 (not_nan_of_finite hxf) hx0 hx4
  have hle := f2iSat_le_of_scaled (hi := Config.delayMax) (by decide)
    (scaled_fround_le (k := 16) (m := 0x41800000) hrf (by decide) hr)
  have hraw : (mapRegs n act cfg).dlLen =
      delayLength (fexp2 (fmul (Config.nanAt n .rawMul) (remap n .e act) fFour)) := by
    simp only [mapRegs, rawDelay, cfgDelayLin, hcfg, Bool.false_eq_true, if_false]
  rw [hraw]
  exact ⟨(delayLength_bounds _).1, Nat.max_le.2 ⟨by decide, hle⟩⟩

/-! ## The phases -/

/-- `WRAP` takes `[0, 4π)` into `[0, 2π)`: below `2π` it is the operand, from `2π` on the difference is below `2π`, and
rounds to no more than the pattern before `2π`. -/
theorem wrap_phaseInRange {nan x : F32} (hx : isFinite x = true) (h0 : 0 ≤ scaled x)
    (h4 : scaled x < 2 * scaled twoPi) : phaseInRange (wrap nan x) = true := by
  have hpi : scaled twoPi = magBits 0x40C90FDB := by decide
  have h4pi : 2 * scaled twoPi = magBits (0x41490FDA + 1) := by decide
  rw [phaseInRange_iff]
  unfold wrap
  by_cases hge : fge x twoPi = true
  · rw [if_pos hge]
    obtain ⟨-, -, hle⟩ := (fle_iff twoPi x).1 hge
    have hx4 := le_magBits_of_lt h0 (h4pi ▸ h4)
    have hneg : scaled (fneg twoPi) = -scaled twoPi := by decide
    have hpred : (magBits 0x41490FDA : Int) ≤ scaled twoPi + magBits 0x40C90FDA := by decide
    have hr := pack_range (by decide) (fadd_range (nan := nan) (lo := 0) (hi := 0x40C90FDA) hx (y := fneg twoPi)
      (by decide) (by decide) (by rw [magBits_zero, hneg]; omega) (by rw [hneg]; omega))
    obtain ⟨hf, hlo, hhi⟩ := hr
    refine ⟨not_nan_of_finite hf, hlo, lt_of_le_of_lt hhi ?_⟩
    rw [hpi]; exact_mod_cast magBits_lt.2 (by decide)
  · rw [if_neg hge]
    have hnn := not_nan_of_finite hx
    refine ⟨hnn, h0, lt_of_not_ge fun hle => hge ?_⟩
    exact (fle_iff twoPi x).2 ⟨by decide, hnn, hle⟩

/-- A phase advanced by less than a turn and wrapped is a phase. -/
theorem advance_phaseInRange {nan nan' ph inc : F32} (hph : phaseInRange ph = true) (hf : isFinite inc = true)
    (h0 : 0 ≤ scaled inc) (h1 : scaled inc < scaled twoPi) : phaseInRange (wrap nan (fadd nan' ph inc)) = true := by
  obtain ⟨-, hp0, hp1⟩ := phaseInRange_iff.1 hph
  have hpi : scaled twoPi = magBits (0x40C90FDA + 1) := by decide
  have hpf := finite_of_range (h := twoPi) (by decide) hp0 hp1.le
  have hple := le_magBits_of_lt hp0 (hpi ▸ hp1)
  have hile := le_magBits_of_lt h0 (hpi ▸ h1)
  have hdouble : 2 * (magBits 0x40C90FDA : Int) = magBits 0x41490FDA := by decide
  obtain ⟨hsf, hs0, hs1⟩ := pack_range (by decide) (fadd_range (nan := nan') (lo := 0) (hi := 0x41490FDA) hpf hf
    (by decide) (by rw [magBits_zero]; omega) (by omega))
  refine wrap_phaseInRange hsf hs0 (lt_of_le_of_lt hs1 ?_)
  decide

/-- One is less than a turn. -/
theorem one_lt_twoPi : (magBits 0x3F800000 : Int) < scaled twoPi := by decide

/-- The FM increment `K * FMRATE` is in `[0, 1]` for a rate in `[0, 256]`. -/
theorem fmInc_range {nan rate : F32} (h : between 0x00000000#32 0x43800000#32 rate = true) :
    isFinite (fmul nan phaseK rate) = true ∧ 0 ≤ scaled (fmul nan phaseK rate) ∧
      scaled (fmul nan phaseK rate) ≤ magBits 0x3F800000 := by
  obtain ⟨-, h0, h1⟩ := (between_iff (by decide) (by decide)).1 h
  have hf := finite_of_range (by decide) h0 h1
  have hK : 0 ≤ scaled phaseK ∧ scaled phaseK * scaled 0x43800000#32 ≤ (magBits 0x3F800000 : Int) * 2 ^ 149 := by
    decide
  exact pack_range (by decide) (fmul_range (nan := nan) (lo := 0) (by decide) hf hK.1 h0 (by decide)
    (by rw [magBits_zero]; simpa using mul_nonneg hK.1 h0)
    ((mul_le_mul_of_nonneg_left h1 hK.1).trans hK.2))

/-- Settles O45: the FM phase advances by at most 1. -/
theorem fmPhaseStaysInRange : Obligations.FmPhaseStaysInRange := by
  intro s t hph hrate h
  cases h
  obtain ⟨hf, h0, h1⟩ := fmInc_range (nan := Config.nanAt s.draws .fmInc) hrate
  exact advance_phaseInRange hph hf h0 (lt_of_le_of_lt h1 one_lt_twoPi)

/-- The envelope increment `K / PERIOD` is in `[0, 1]` for a period in `[0.1, 2.1]`. -/
theorem envInc_range {nan period : F32} (h : between 0x3DCCCCCD#32 0x40066666#32 period = true) :
    isFinite (fdiv nan phaseK period) = true ∧ 0 ≤ scaled (fdiv nan phaseK period) ∧
      scaled (fdiv nan phaseK period) ≤ magBits 0x3F800000 := by
  obtain ⟨-, h0, h1⟩ := (between_iff (by decide) (by decide)).1 h
  have hpos : 0 < scaled period := lt_of_lt_of_le (by decide) h0
  have hf := finite_of_range (by decide) hpos.le h1
  have hK : 0 ≤ scaled phaseK ∧ scaled phaseK * 2 ^ 149 ≤ (magBits 0x3F800000 : Int) * scaled 0x3DCCCCCD#32 := by
    decide
  exact pack_range (by decide) (fdiv_range (nan := nan) (lo := 0) (by decide) hf hK.1 hpos (by decide)
    (by rw [magBits_zero]; simpa using hK.1)
    (hK.2.trans (mul_le_mul_of_nonneg_left h0 (Int.natCast_nonneg _))))

/-- With a duty cycle of 1 the threshold is `2π`, which no phase passes. -/
theorem envGate_duty_one {n : Nat} {ph : F32} (h : phaseInRange ph = true) : envGate n ph fOne = true := by
  obtain ⟨hnn, -, hlt⟩ := phaseInRange_iff.1 h
  have hthr : fmul (Config.nanAt n .envThr) twoPi fOne = twoPi := rfl
  unfold envGate
  rw [hthr]
  exact (fle_iff ph twoPi).2 ⟨hnn, by decide, hlt.le⟩

/-- Settles O47: the envelope phase advances by at most 1. -/
theorem envPhaseStaysInRange : Obligations.EnvPhaseStaysInRange := by
  intro s t hph hperiod h
  cases h
  obtain ⟨hf, h0, h1⟩ := envInc_range (nan := Config.nanAt s.draws .envInc) hperiod
  have hnew := advance_phaseInRange (nan := Config.nanAt s.draws .envWrap) (nan' := Config.nanAt s.draws .envAdd) hph hf h0
    (lt_of_le_of_lt h1 one_lt_twoPi)
  refine ⟨hnew, fun hduty => ?_⟩
  have hgate := envGate_duty_one (n := s.draws) hnew
  rw [show fOne = s.derived.duty from hduty.symm] at hgate
  exact congrArg UnitOut.gate hgate

end Sys2Proof.Proofs

/-! PROOF. The memories of the block (20_memory.md): a step takes the next word of the run (R69), a push stores one entry of
the ring (R62), the delay RAM with one pointer is the delay sequence (R67), and no access can fault from the invariants
(R71). -/

namespace Sys2Proof.Proofs

open Sys2Proof.Machine Sys2Proof.Safety Sys2Proof.Laws

/-! ## Steps -/

/-- A word that decodes runs its instruction. -/
theorem accept_of_decode {w : CmdWord} {i : Instr} (h : decode w = .ok i) (s : State) :
    accept (.cmd w) s = exec i s := by
  change runWord w s = _
  unfold runWord; rw [h]

/-- With no event to come a step changes nothing (60_exceptions.md R272). -/
theorem step_of_no_inputs {s : State} (h : s.inputs = []) : step s = .next s := by
  unfold step; rw [h]

/-- Settles O3: the next event is the word, and the word runs what it decodes to. -/
theorem stepRunsDecodedInstruction : Obligations.StepRunsDecodedInstruction :=
  ⟨fun _ _ _ _ hin hd => (step_of_inputs hin).trans (accept_of_decode hd _), fun _ hin => step_of_no_inputs hin⟩

/-! ## The parameter ring -/

/-- Settles O14: the push of a queue that is not full is one write to the ring, at the index of `WR`. -/
theorem pushStoresOneEntry : Obligations.PushStoresOneEntry := by
  intro p s hwf hfull
  rcases execPush_cases p s with ⟨hc, -⟩ | ⟨-, hpush⟩
  · exact absurd hc ((queueFull_false_iff s).1 hfull)
  · exact ⟨_, hpush, write_wf (ringIndex_lt s.wr) hwf, read_write_same s.pq _ p,
      fun _ hne => read_write_other s.pq p hne⟩

/-! ## The delay RAM -/

/-- The sequence a delay RAM stands for is its words, read round from the pointer. -/
theorem sequence_eq_rotate (r : DelayRam) : r.sequence = r.ram.rotate r.ptr := by
  refine List.ext_getElem (by simp [DelayRam.sequence]) fun i hi hi' => ?_
  have hlt : (r.ptr + i) % r.ram.length < r.ram.length := Nat.mod_lt _ (by simp at hi'; omega)
  simp [DelayRam.sequence, List.getElem_rotate, Nat.add_comm i, hlt]

/-- The sequence before an access: the word at the pointer is the oldest. -/
theorem sequence_eq_cons {r : DelayRam} (h : r.ptr < r.ram.length) :
    r.sequence = r.ram.getD r.ptr fZero :: (r.ram.drop (r.ptr + 1) ++ r.ram.take r.ptr) := by
  rw [sequence_eq_rotate, List.rotate_eq_drop_append_take h.le, List.drop_eq_getElem_cons h, List.getD_eq_getElem _ _ h,
    List.cons_append]

/-- The sequence after an access: the word written at the pointer is now the newest. -/
theorem sequence_tick {r : DelayRam} (h : r.ptr < r.ram.length) (x : F32) :
    (r.tick x).2.sequence = r.ram.drop (r.ptr + 1) ++ r.ram.take r.ptr ++ [x] := by
  have hlen : (r.ram.set r.ptr x).length = r.ram.length := List.length_set
  have hrot : (r.tick x).2.sequence = (r.ram.set r.ptr x).rotate (r.ptr + 1) := by
    rw [sequence_eq_rotate, ← List.rotate_mod _ (r.ptr + 1), hlen]; rfl
  rw [hrot, List.rotate_eq_drop_append_take (hlen ▸ h), List.drop_set_of_lt (Nat.lt_succ_self _),
    List.take_succ_eq_append_getElem (hlen ▸ h), List.getElem_set_self, List.take_set_of_le le_rfl, List.append_assoc]

/-- Settles O40: one access turns the oldest word into the newest (`sequence_eq_cons`, `sequence_tick`), and a cleared RAM
is read from its first word. -/
theorem delayRamRefinesTheSequence : Obligations.DelayRamRefinesTheSequence := by
  refine ⟨fun x r h => ⟨?_, ?_⟩, fun len s => ⟨?_, ?_⟩⟩
  · rw [sequence_eq_cons h, sequence_tick h]; rfl
  · have hlen : (r.tick x).2.ram.length = r.ram.length := List.length_set
    rw [hlen]
    exact Nat.mod_lt _ (Nat.zero_lt_of_lt h)
  · rw [sequence_eq_rotate]; exact List.rotate_zero _
  · exact (clampLength_pos len).trans_eq (length_zeros _).symm

/-! ## Completion from the invariants -/

/-- A delay line of at least one sample is not empty. -/
theorem dl_ne_nil_of_inv {s : State} (hi : Inv s) : s.dl ≠ [] :=
  List.ne_nil_of_length_pos hi.delayNonempty

/-- A derived period is not zero. -/
theorem psamp_ne_zero_of_inv {s : State} (hi : Inv s) : s.derived.psamp ≠ 0 := by
  obtain ⟨n, hmap⟩ := hi.derivedCache
  rw [hmap]
  exact Nat.one_le_iff_ne_zero.1 (periodSamples_pos n _)

/-- A legal configuration has a mode. -/
theorem cfgMode_isSome_of_inv {s : State} (hi : Inv s) : (cfgMode s.cfg).isSome = true :=
  (Bool.and_eq_true_iff.1 hi.cfgLegal).1

/-- `PUSH` completes in every state: a full queue is a status return (60_exceptions.md R252). -/
theorem execPush_completes (p : Snapshot) (s : State) : ∃ t, exec (.push p) s = .next t := by
  rcases execPush_cases p s with ⟨-, h⟩ | ⟨-, h⟩ <;> exact ⟨_, h⟩

/-- `FRAME` drains an entry that holds a value, or nothing. -/
theorem execFrame_completes {s : State} (hi : Inv s) : ∃ t, exec .frame s = .next t := by
  by_cases hc : queueCount s.wr s.rd = 0
  · exact ⟨_, frameAppliesAndResizes.1 s hc⟩
  · obtain ⟨p, hp⟩ := newest_written hi hc
    exact ⟨_, frameAppliesAndResizes.2 s p hc hp⟩

theorem execDlTick_completes {s : State} (hd : s.dl ≠ []) (x : F32) : ∃ t, exec (.dlTick x) s = .next t := by
  obtain ⟨y, rest, hd⟩ := List.exists_cons_of_ne_nil hd
  change ∃ t, execDlTick x s = .next t
  simp only [execDlTick, dlTick, hd, shiftDelay]
  exact ⟨_, rfl⟩

theorem execCntGate_completes {s : State} (hp : s.derived.psamp ≠ 0) : ∃ t, exec .cntGate s = .next t := by
  change ∃ t, execCntGate s = .next t
  simp only [execCntGate, cntGate, if_neg hp]
  exact ⟨_, rfl⟩

theorem execMixOut_completes {s : State} (hm : (cfgMode s.cfg).isSome = true) (mixed : F32) (eg : Bool) (osc : F32)
    (cg : Bool) : ∃ t, exec (.mixOut mixed eg osc cg) s = .next t := by
  obtain ⟨mode, hm⟩ := Option.isSome_iff_exists.1 hm
  change ∃ t, execMixOut mixed eg osc cg s = .next t
  simp only [execMixOut, mixOut, hm]
  exact ⟨_, rfl⟩

/-- Every instruction completes from the invariants. -/
theorem exec_completes (i : Instr) {s : State} (hi : Inv s) : ∃ t, exec i s = .next t := by
  cases i with
  | push p => exact execPush_completes p s
  | frame => exact execFrame_completes hi
  | tick => exact execTick_completes (dl_ne_nil_of_inv hi) (psamp_ne_zero_of_inv hi) (cfgMode_isSome_of_inv hi)
  | drainLatest =>
    obtain ⟨t, ht, -, -⟩ := drainLatest_held hi
    exact ⟨t, ht⟩
  | dlTick x => exact execDlTick_completes (dl_ne_nil_of_inv hi) x
  | cntGate => exact execCntGate_completes (psamp_ne_zero_of_inv hi)
  | mixOut mixed eg osc cg => exact execMixOut_completes (cfgMode_isSome_of_inv hi) mixed eg osc cg
  | nopP | nopC | map | dlResize | noiseStep | envStep | oscStep => exact ⟨_, rfl⟩

/-- Every word of a port, legal or not, completes from the invariants. -/
theorem port_accept_completes {x : Input} (hx : isPort x = true) {s : State} (hi : Inv s) :
    ∃ t, accept x s = .next t := by
  rcases port_word hx with h | ⟨e, h⟩ | ⟨p, h⟩ | h | h <;> rw [h s]
  · exact ⟨s, rfl⟩
  · exact ⟨_, rfl⟩
  · exact exec_completes (.push p) hi
  · exact exec_completes .frame hi
  · exact exec_completes .tick hi

/-- Settles O11: taking the event off the list touches no invariant. -/
theorem everyCommandCompletes : Obligations.EveryCommandCompletes := by
  refine ⟨fun i _ hi => exec_completes i hi, fun s x rest hi hin hx => ?_⟩
  rw [step_of_inputs hin]
  exact port_accept_completes hx (inv_of_frame hi rfl)

end Sys2Proof.Proofs

/-! PROOF. The encoder and the decoder agree (30_encoding.md R82 to R87), and so do the words of R94 with their trace lines. -/

namespace Sys2Proof.Proofs

open Sys2Proof.Laws

/-! ## Words of port P -/

/-- The code `0x0` before a payload is a `NOP` that carries it (R86, R89). -/
theorem decode_wordP_nop (payload : BitVec 192) : decode (wordP 0x0#4 payload) = .ok (.nopP payload) := by
  simp only [wordP, decode, decodeP, if_pos (opP_append _ payload), payloadP_append]

/-- The code `0x1` before a payload is the `PUSH` of the payload's six fields (R86). -/
theorem decode_wordP_push (payload : BitVec 192) :
    decode (wordP 0x1#4 payload) = .ok (.push (Snapshot.ofWord payload)) := by
  have hop : opP (0x1#4 ++ payload) = 0x1#4 := opP_append _ payload
  have hnop : opP (0x1#4 ++ payload) ≠ 0x0#4 := by rw [hop]; decide
  simp only [wordP, decode, decodeP, if_neg hnop, if_pos hop, payloadP_append]

/-- Seven fields in a row are the code before the snapshot word: concatenation is associative. -/
theorem fields_eq_op_toWord (op : BitVec 4) (p : Snapshot) :
    op ++ p.f ++ p.e ++ p.d ++ p.c ++ p.b ++ p.a = op ++ p.toWord := by
  simp only [Snapshot.toWord, BitVec.append_assoc, BitVec.cast_eq]

/-! ## Records of unit operations -/

/-- Operand bits that fit the operation's field pass the check. -/
theorem withOperands_of_lt {n : Nat} (code : BitVec 4) {operands : BitVec 66} (i : Instr) (h : operands.toNat < 2 ^ n) :
    withOperands n code operands i = .ok i :=
  if_pos h

/-- A record made from 32 operand bits passes the check of an operation that has 32. -/
theorem withOperands_unitWord (code : BitVec 4) (x : BitVec 32) (i : Instr) :
    withOperands 32 code (0#34 ++ x) i = .ok i :=
  withOperands_of_lt code i (by rw [toNat_unitOperands]; exact x.isLt)

/-- `DL_RESIZE` reads its length as the number the 32 bits hold. -/
theorem decode_unitWord_dlResize (x : BitVec 32) : decode (unitWord 0x2#4 x) = .ok (.dlResize x.toNat) :=
  (withOperands_unitWord 0x2#4 x _).trans (by rw [toNat_unitOperands])

/-- `DL_TICK` reads its sample as the 32 bits. -/
theorem decode_unitWord_dlTick (x : F32) : decode (unitWord 0x4#4 x) = .ok (.dlTick x) :=
  (withOperands_unitWord 0x4#4 x _).trans (by rw [slice_unitOperands])

/-- The four fields of a `MIX_OUT` record are its four operands. -/
theorem mixOut_fields (mixed : F32) (eg : Bool) (osc : F32) (cg : Bool) :
    let operands : BitVec 66 := BitVec.ofBool cg ++ BitVec.ofBool eg ++ osc ++ mixed
    operands.extractLsb' 0 32 = mixed ∧ operands.getLsbD 64 = eg ∧ operands.extractLsb' 32 32 = osc ∧
      operands.getLsbD 65 = cg := by
  refine ⟨?_, ?_, ?_, ?_⟩
  · exact (slice_low _ mixed (by decide)).trans (slice_all mixed)
  · simp only [BitVec.getLsbD_append, BitVec.getLsbD_ofBool]; simp
  · exact (slice_high _ mixed (by decide)).trans ((slice_low _ osc (by decide)).trans (slice_all osc))
  · simp only [BitVec.getLsbD_append, BitVec.getLsbD_ofBool]; simp

theorem decode_encode_mixOut (mixed : F32) (eg : Bool) (osc : F32) (cg : Bool) :
    decode (encode (.mixOut mixed eg osc cg)) = .ok (.mixOut mixed eg osc cg) := by
  obtain ⟨hmixed, heg, hosc, hcg⟩ := mixOut_fields mixed eg osc cg
  change Except.ok (Instr.mixOut _ _ _ _) = _
  rw [hmixed, heg, hosc, hcg]

/-! ## The obligations -/

/-- Settles O1: one case per instruction. A length that fits 32 bits is the number they hold, and the instructions without
operands have one word each. -/
theorem decodeOfEncode : Obligations.DecodeOfEncode := by
  intro i hwf
  cases i with
  | nopP payload => exact decode_wordP_nop payload
  | push p => exact (decode_wordP_push p.toWord).trans (by rw [ofWord_toWord])
  | dlResize len =>
    have hlen : len < 2 ^ 32 := of_decide_eq_true hwf
    exact (decode_unitWord_dlResize _).trans (by rw [BitVec.toNat_ofNat, Nat.mod_eq_of_lt hlen])
  | dlTick x => exact decode_unitWord_dlTick x
  | mixOut mixed eg osc cg => exact decode_encode_mixOut mixed eg osc cg
  | nopC | frame | tick | drainLatest | map | noiseStep | envStep | oscStep | cntGate => rfl

/-- The seven fields of a `PUSH`, `f` first, decode to the `PUSH` of the snapshot they hold. -/
theorem decode_push_fields (p : Snapshot) :
    decode (.portP (0x1#4 ++ p.f ++ p.e ++ p.d ++ p.c ++ p.b ++ p.a)) = .ok (.push p) := by
  rw [fields_eq_op_toWord]
  exact decodeOfEncode (.push p) rfl

/-- Settles O2: each word is that of its instruction, and the configuration words are computed. -/
theorem writtenWordsDecode : Obligations.WrittenWordsDecode :=
  ⟨decode_wordP_nop, decode_push_fields ⟨_, _, _, _, _, _⟩, decode_push_fields ⟨_, _, _, _, _, _⟩,
    decodeOfEncode .frame rfl, decodeOfEncode .tick rfl, by decide, by decide⟩

end Sys2Proof.Proofs

/-! PROOF. The arithmetic of 40_numerics.md: `fadd`, `fsub`, `fmul` and `fdiv` are the exact result rounded once (R101, R102),
with one equation per class of operands. -/

namespace Sys2Proof.Proofs

open Sys2Proof.Machine Sys2Proof.Safety Sys2Proof.Laws

/-! ## The classes of R100 -/

/-- An infinity is no NaN. -/
theorem not_nan_of_inf {x : F32} (h : isInf x = true) : isNaN x = false := by
  rw [← Bool.not_eq_true, isNaN_iff]; rw [isInf_iff] at h; omega

/-- A zero is finite. -/
theorem finite_of_zero {x : F32} (h : isZero x = true) : isFinite x = true := by
  rw [isZero_iff] at h; rw [isFinite_iff, h]; decide

/-- An infinity is no zero. -/
theorem not_zero_of_inf {x : F32} (h : isInf x = true) : isZero x = false := by
  rw [← Bool.not_eq_true, isZero_iff]; rw [isInf_iff, infBits] at h; omega

/-- What is neither a NaN nor an infinity is finite. -/
theorem finite_of_not_nan_not_inf {x : F32} (hn : isNaN x = false) (hi : isInf x = false) : isFinite x = true := by
  rw [← Bool.not_eq_true, isNaN_iff] at hn
  rw [← Bool.not_eq_true, isInf_iff] at hi
  rw [isFinite_iff]; omega

/-- A magnitude is zero only at a zero. -/
theorem mag_pos_of_not_zero {x : F32} (h : isZero x = false) : 0 < mag x := by
  rw [← Bool.not_eq_true, isZero_iff] at h
  rw [mag_eq, ← magBits_zero, magBits_lt]; omega

/-- The infinity of a sign. -/
theorem pack_infBits (b : Bool) : pack b infBits = if b = true then 0xFF800000#32 else 0x7F800000#32 := by
  cases b <;> rfl

/-- The zero of a sign. -/
theorem pack_zero (b : Bool) : pack b 0 = if b = true then 0x80000000#32 else 0x00000000#32 := by
  cases b <;> rfl

/-- An infinity is the one of its sign. -/
theorem eq_pack_of_inf {x : F32} (h : isInf x = true) : x = pack (sgn x) infBits := by
  rw [← (isInf_iff x).1 h, pack_self]

/-! ## The operand with its sign inverted -/

@[simp] theorem isNaN_fneg (x : F32) : isNaN (fneg x) = isNaN x :=
  Bool.eq_iff_iff.2 (by rw [isNaN_iff, isNaN_iff, low31_fneg])

@[simp] theorem isInf_fneg (x : F32) : isInf (fneg x) = isInf x :=
  Bool.eq_iff_iff.2 (by rw [isInf_iff, isInf_iff, low31_fneg])

@[simp] theorem isFinite_fneg (x : F32) : isFinite (fneg x) = isFinite x :=
  Bool.eq_iff_iff.2 (by rw [isFinite_iff, isFinite_iff, low31_fneg])

theorem scaled_fneg (x : F32) : scaled (fneg x) = -scaled x := by
  simp only [scaled, sgn_fneg, mag_eq, low31_fneg]
  cases sgn x <;> simp

/-! ## `fadd` by the classes of its operands -/

theorem fadd_nan {x y : F32} (nan : F32) (h : isNaN x = true ∨ isNaN y = true) : fadd nan x y = nan :=
  if_pos (Bool.or_eq_true_iff.2 h)

/-- Two infinities: the one both are, or the NaN where they cancel. -/
theorem fadd_inf_inf {x y : F32} (nan : F32) (hx : isInf x = true) (hy : isInf y = true) :
    fadd nan x y = if sgn x = sgn y then x else nan := by
  simp only [fadd, not_nan_of_inf hx, not_nan_of_inf hy, hx, hy]
  cases sgn x <;> cases sgn y <;> rfl

theorem fadd_inf_finite {x y : F32} (nan : F32) (hx : isInf x = true) (hy : isFinite y = true) : fadd nan x y = x := by
  simp [fadd, not_nan_of_inf hx, not_nan_of_finite hy, hx, not_inf_of_finite hy]

theorem fadd_finite_inf {x y : F32} (nan : F32) (hx : isFinite x = true) (hy : isInf y = true) : fadd nan x y = y := by
  simp [fadd, not_nan_of_inf hy, not_nan_of_finite hx, hy, not_inf_of_finite hx]

/-- Finite operands: the zero of the addends' common sign, or the rounded sum. -/
theorem fadd_finite {x y : F32} (nan : F32) (hx : isFinite x = true) (hy : isFinite y = true) :
    fadd nan x y = if scaled x + scaled y = 0 then pack (sgn x && sgn y) 0
      else pack (decide (scaled x + scaled y < 0)) (roundMag (scaled x + scaled y).natAbs 1) := by
  simp [fadd, not_nan_of_finite hx, not_nan_of_finite hy, not_inf_of_finite hx, not_inf_of_finite hy]

/-- A zero of either sign is the value 0 rounded once: it is far from the overflow, so no sign is asked for. -/
theorem roundsOnce_zero (b neg : Bool) : RoundsOnce (pack b 0) 0 1 neg := by
  have h := roundsOnce_pack (n := 0) (d := 1) (v := 0) b Nat.one_pos (by cases b <;> rfl)
  exact ⟨h.1, fun hbig => absurd hbig (by decide)⟩

theorem fadd_roundsOnce {x y : F32} (nan : F32) (hx : isFinite x = true) (hy : isFinite y = true) :
    RoundsOnce (fadd nan x y) (scaled x + scaled y) 1 (decide (scaled x + scaled y < 0)) := by
  rw [fadd_finite nan hx hy]
  generalize scaled x + scaled y = v
  split
  · rename_i hz; rw [hz]; exact roundsOnce_zero _ _
  · refine roundsOnce_pack _ Nat.one_pos ?_
    by_cases hneg : v < 0
    · rw [decide_eq_true hneg, if_pos rfl]; omega
    · rw [decide_eq_false hneg, if_neg Bool.false_ne_true]; omega

theorem fadd_exact_zero {x y : F32} (nan : F32) (hx : isFinite x = true) (hy : isFinite y = true)
    (h : scaled x + scaled y = 0) :
    fadd nan x y = if sgn x = true ∧ sgn y = true then 0x80000000#32 else 0x00000000#32 := by
  rw [fadd_finite nan hx hy, if_pos h, pack_zero]
  simp only [Bool.and_eq_true]

/-- Settles O52: `fsub` is `fadd` of the operand with its sign inverted, so each of its clauses is one of `fadd`. -/
theorem addRoundsToNearestEven : Obligations.AddRoundsToNearestEven := by
  refine ⟨fun nan x y hx hy => ?_, fun nan x y h => ?_, fun nan x y hx hy => ?_, fun nan x y hx hy => ?_,
    fun nan x y hx hy => ?_⟩
  · have hny : isFinite (fneg y) = true := (isFinite_fneg y).trans hy
    have hsub : scaled x - scaled y = scaled x + scaled (fneg y) := by rw [scaled_fneg, sub_eq_add_neg]
    refine ⟨fadd_roundsOnce nan hx hy, ?_, fadd_exact_zero nan hx hy, fun hz => ?_⟩
    · rw [hsub]; exact fadd_roundsOnce nan hx hny
    · have h := fadd_exact_zero nan hx hny (hsub ▸ hz)
      simpa only [fsub, sgn_fneg, Bool.not_eq_true'] using h
  · exact ⟨fadd_nan nan h, fadd_nan nan (h.imp_right (isNaN_fneg y).trans)⟩
  · refine ⟨fadd_inf_inf nan hx hy, ?_⟩
    rw [fsub, fadd_inf_inf nan hx ((isInf_fneg y).trans hy), sgn_fneg]
    cases sgn x <;> cases sgn y <;> rfl
  · exact ⟨fadd_inf_finite nan hx hy, fadd_inf_finite nan hx ((isFinite_fneg y).trans hy)⟩
  · have hny : isInf (fneg y) = true := (isInf_fneg y).trans hy
    refine ⟨fadd_finite_inf nan hx hy, ?_⟩
    rw [fsub, fadd_finite_inf nan hx hny, eq_pack_of_inf hny, pack_infBits, sgn_fneg]
    cases sgn y <;> rfl

/-! ## `fmul` by the classes of its operands -/

/-- The sign of a product is the exclusive-or of the signs. -/
theorem scaled_mul (x y : F32) :
    scaled x * scaled y = if (sgn x != sgn y) = true then -((mag x * mag y : Nat) : Int) else (mag x * mag y : Nat) := by
  unfold scaled
  cases sgn x <;> cases sgn y <;> simp

theorem fmul_finite {x y : F32} (nan : F32) (hx : isFinite x = true) (hy : isFinite y = true) :
    fmul nan x y = pack (sgn x != sgn y) (roundMag (mag x * mag y) (2 ^ 149)) := by
  simp [fmul, not_nan_of_finite hx, not_nan_of_finite hy, not_inf_of_finite hx, not_inf_of_finite hy]

theorem fmul_nan {x y : F32} (nan : F32) (h : isNaN x = true ∨ isNaN y = true) : fmul nan x y = nan :=
  if_pos (Bool.or_eq_true_iff.2 h)

/-- An infinite operand and no NaN: the NaN beside a zero, and otherwise the infinity of the sign. -/
theorem fmul_inf {x y : F32} (nan : F32) (hx : isNaN x = false) (hy : isNaN y = false)
    (h : isInf x = true ∨ isInf y = true) :
    fmul nan x y = if isZero x || isZero y then nan else pack (sgn x != sgn y) infBits := by
  have hinf : (isInf x || isInf y) = true := Bool.or_eq_true_iff.2 h
  simp only [fmul, hx, hy, hinf, Bool.or_self, Bool.false_eq_true, if_false, if_true]

/-- Settles O53, by the equation of `fmul` for each class of operands. -/
theorem mulRoundsToNearestEven : Obligations.MulRoundsToNearestEven := by
  refine ⟨fun nan x y hx hy => ?_, fun nan x y h => ?_, fun nan x y hx hy hx0 hy0 h => ?_⟩
  · rw [fmul_finite nan hx hy]
    have h := roundsOnce_pack (d := 2 ^ 149) (sgn x != sgn y) (by positivity) (scaled_mul x y)
    exact ⟨by exact_mod_cast h, sgn_pack (roundMag_lt_31 _ _)⟩
  · rcases h with h | h | ⟨hx, hy⟩ | ⟨hx, hy⟩
    · exact fmul_nan nan (Or.inl h)
    · exact fmul_nan nan (Or.inr h)
    · rw [fmul_inf nan (not_nan_of_inf hx) (not_nan_of_finite (finite_of_zero hy)) (Or.inl hx), hy, Bool.or_true,
        if_pos rfl]
    · rw [fmul_inf nan (not_nan_of_finite (finite_of_zero hx)) (not_nan_of_inf hy) (Or.inr hy), hx, Bool.true_or,
        if_pos rfl]
  · rw [fmul_inf nan hx hy h, hx0, hy0, Bool.or_self, if_neg Bool.false_ne_true, pack_infBits]

/-! ## `fdiv` by the classes of its operands -/

theorem fdiv_finite {x y : F32} (nan : F32) (hx : isFinite x = true) (hy : isFinite y = true) (hy0 : isZero y = false) :
    fdiv nan x y = pack (sgn x != sgn y) (roundMag (mag x * 2 ^ 149) (mag y)) := by
  simp [fdiv, not_nan_of_finite hx, not_nan_of_finite hy, not_inf_of_finite hx, not_inf_of_finite hy, hy0]

theorem fdiv_nan {x y : F32} (nan : F32) (h : isNaN x = true ∨ isNaN y = true) : fdiv nan x y = nan :=
  if_pos (Bool.or_eq_true_iff.2 h)

theorem fdiv_zero_zero {x y : F32} (nan : F32) (hx : isZero x = true) (hy : isZero y = true) : fdiv nan x y = nan := by
  have hxf := finite_of_zero hx
  have hyf := finite_of_zero hy
  simp [fdiv, not_nan_of_finite hxf, not_nan_of_finite hyf, not_inf_of_finite hxf, not_inf_of_finite hyf, hx, hy]

theorem fdiv_inf_inf {x y : F32} (nan : F32) (hx : isInf x = true) (hy : isInf y = true) : fdiv nan x y = nan := by
  simp [fdiv, hx, hy]

theorem fdiv_inf_finite {x y : F32} (nan : F32) (hx : isInf x = true) (hy : isFinite y = true) :
    fdiv nan x y = pack (sgn x != sgn y) infBits := by
  simp [fdiv, not_nan_of_inf hx, not_nan_of_finite hy, hx, not_inf_of_finite hy]

theorem fdiv_finite_inf {x y : F32} (nan : F32) (hx : isFinite x = true) (hy : isInf y = true) :
    fdiv nan x y = pack (sgn x != sgn y) 0 := by
  simp [fdiv, not_nan_of_finite hx, not_nan_of_inf hy, hy, not_inf_of_finite hx]

theorem fdiv_finite_zero {x y : F32} (nan : F32) (hx : isFinite x = true) (hx0 : isZero x = false)
    (hy : isZero y = true) : fdiv nan x y = pack (sgn x != sgn y) infBits := by
  have hyf := finite_of_zero hy
  simp [fdiv, not_nan_of_finite hx, not_nan_of_finite hyf, not_inf_of_finite hx, not_inf_of_finite hyf, hx0, hy]

/-- The quotient of finite operands rounded once: the magnitudes' quotient with the exclusive-or of the signs, where a
negative divisor negates both sides of the exact quotient. -/
theorem fdiv_roundsOnce {x y : F32} (nan : F32) (hx : isFinite x = true) (hy : isFinite y = true)
    (hy0 : isZero y = false) : RoundsOnce (fdiv nan x y) (scaled x * 2 ^ 149) (scaled y) (sgn x != sgn y) := by
  rw [fdiv_finite nan hx hy hy0]
  have hpos := mag_pos_of_not_zero hy0
  cases hsy : sgn y
  · have hd : scaled y = mag y := by simp [scaled, hsy]
    rw [hd]
    refine roundsOnce_pack _ hpos ?_
    cases hsx : sgn x <;> simp [scaled, hsx]
  · have hd : scaled y = -(mag y : Int) := by simp [scaled, hsy]
    have h := roundsOnce_pack (n := mag x * 2 ^ 149) (v := -(scaled x * 2 ^ 149)) (sgn x != true) hpos
      (by cases hsx : sgn x <;> simp [scaled, hsx])
    rw [hd]
    simpa only [neg_neg] using RoundsOnce.neg h

/-- The phase constant (R106). -/
theorem fdiv_twoPi_sr (nan : F32) : fdiv nan 0x40C90FDB#32 0x472C4400#32 = phaseK := rfl

/-- Settles O54, by the equation of `fdiv` for each class of operands; a division by zero is one of an infinity or of a
finite operand. -/
theorem divRoundsToNearestEven : Obligations.DivRoundsToNearestEven := by
  refine ⟨fun nan x y hx hy hy0 => ?_, fun nan x y h => ?_, fun nan x y hx hx0 hy => ?_, fun nan x y hx hy => ?_,
    fun nan x y hx hy => ?_, fun nan => ⟨fdiv_twoPi_sr nan, rfl⟩⟩
  · refine ⟨fdiv_roundsOnce nan hx hy hy0, ?_⟩
    rw [fdiv_finite nan hx hy hy0, sgn_pack (roundMag_lt_31 _ _)]
  · rcases h with h | h | ⟨hx, hy⟩ | ⟨hx, hy⟩
    · exact fdiv_nan nan (Or.inl h)
    · exact fdiv_nan nan (Or.inr h)
    · exact fdiv_zero_zero nan hx hy
    · exact fdiv_inf_inf nan hx hy
  · rw [← pack_infBits]
    cases hi : isInf x
    · exact fdiv_finite_zero nan (finite_of_not_nan_not_inf hx hi) hx0 hy
    · exact fdiv_inf_finite nan hi (finite_of_zero hy)
  · rw [← pack_infBits]; exact fdiv_inf_finite nan hx hy
  · rw [← pack_zero]; exact fdiv_finite_inf nan hx hy

end Sys2Proof.Proofs

/-! PROOF. Comparison and conversion of 40_numerics.md (R104, R107 to R109), and the named properties of the two
transcendental functions (R111, R112). -/

namespace Sys2Proof.Proofs

open Sys2Proof.Machine Sys2Proof.Safety Sys2Proof.Laws

/-! ## Comparison -/

theorem fge_iff (x y : F32) : fge x y = true ↔ isNaN x = false ∧ isNaN y = false ∧ scaled y ≤ scaled x := by
  rw [fge, fle_iff]; tauto

/-- The value an infinity is read as is at the end of the values of the non-NaN operands. -/
theorem abs_scaled_le_inf {x : F32} (h : isNaN x = false) : |scaled x| ≤ magBits infBits := by
  rw [← Bool.not_eq_true, isNaN_iff, not_lt] at h
  rw [Int.abs_eq_natAbs, scaled_natAbs, mag_eq]
  exact_mod_cast magBits_le.2 h

/-- A finite value is strictly inside the ends. -/
theorem abs_scaled_lt_inf {x : F32} (h : isFinite x = true) : |scaled x| < magBits infBits := by
  rw [Int.abs_eq_natAbs, scaled_natAbs, mag_eq]
  exact_mod_cast magBits_lt.2 ((isFinite_iff x).1 h)

theorem scaled_zero {x : F32} (h : isZero x = true) : scaled x = 0 := by
  have hm : mag x = 0 := by rw [mag_eq, (isZero_iff x).1 h, magBits_zero]
  rw [← Int.natAbs_eq_zero, scaled_natAbs, hm]

theorem scaled_posInf : scaled 0x7F800000#32 = magBits infBits := by decide

theorem scaled_negInf : scaled 0xFF800000#32 = -(magBits infBits : Int) := by decide

theorem not_nan_infinities : isNaN 0x7F800000#32 = false ∧ isNaN 0xFF800000#32 = false := by decide

/-- Settles O55: each comparison is the comparison of the values (`fle_iff`, `flt_iff`, `fge_iff`), which the values of the
infinities bound. -/
theorem comparisonsFollowTheValues : Obligations.ComparisonsFollowTheValues := by
  obtain ⟨hpos, hneg⟩ := not_nan_infinities
  refine ⟨fun x y h => ?_, fun x y hx hy => ?_, fun x y hx hy => ?_, fun x hx => ?_, fun x hx => ?_⟩
  · simp only [← Bool.not_eq_true, fle_iff, flt_iff, fge_iff]
    rcases h with h | h <;> simp [h]
  · simp [fle_iff, flt_iff, fge_iff, not_nan_of_finite hx, not_nan_of_finite hy]
  · have hxn := not_nan_of_finite (finite_of_zero hx)
    have hyn := not_nan_of_finite (finite_of_zero hy)
    simp [← Bool.not_eq_true, fle_iff, flt_iff, fge_iff, hxn, hyn, scaled_zero hx, scaled_zero hy]
  · obtain ⟨hlo, hhi⟩ := abs_le.1 (abs_scaled_le_inf hx)
    simp only [fle_iff, fge_iff, scaled_posInf, scaled_negInf, hx, hpos, hneg, true_and]
    exact ⟨hlo, hhi, hlo, hhi⟩
  · obtain ⟨hlo, hhi⟩ := abs_lt.1 (abs_scaled_lt_inf hx)
    simp only [← Bool.not_eq_true, fle_iff, flt_iff, scaled_posInf, scaled_negInf, not_nan_of_finite hx, hpos, hneg,
      true_and, not_le]
    exact ⟨hlo, hhi, hlo, hhi⟩

/-! ## Integers -/

/-- A significand of at most `2^24` units of any power of two is representable: it is doubled until it fills its binade. -/
theorem exists_magBits_eq {j : Nat} (e : Nat) (hj : j ≤ 2 ^ 24) : ∃ m, magBits m = j * 2 ^ e := by
  induction e generalizing j with
  | zero => exact ⟨_, magBits_significand (k := 0) hj (Or.inl rfl)⟩
  | succ e ih =>
    by_cases hfull : 2 ^ 23 ≤ j
    · exact ⟨_, magBits_significand (k := e + 1) hj (Or.inr hfull)⟩
    · obtain ⟨m, hm⟩ := ih (j := 2 * j) (by omega)
      exact ⟨m, by rw [hm]; ring⟩

/-- A representable magnitude is packed as it is, below the infinity's as a finite pattern. -/
theorem mag_pack_exact {n m : Nat} (neg : Bool) (hm : magBits m = n) (hlt : n < magBits infBits) :
    isFinite (pack neg (roundMag n 1)) = true ∧ mag (pack neg (roundMag n 1)) = n := by
  have hfin : m < infBits := magBits_lt.1 (hm ▸ hlt)
  have hr : roundMag n 1 = m := roundMag_exact Nat.one_pos hfin.le (by rw [hm, Nat.mul_one])
  rw [mag_pack (roundMag_lt_31 n 1), hr]
  exact ⟨isFinite_pack hfin, hm⟩

theorem magBits_infBits : magBits infBits = 2 ^ 128 * 2 ^ 149 := by decide

/-- `i2f` rounds the integer once. -/
theorem i2f_roundsOnce (n : Nat) : RoundsOnce (i2f n) ((n : Int) * 2 ^ 149) 1 false := by
  have h := roundsOnce_pack (n := n * 2 ^ 149) (d := 1) (v := ((n * 2 ^ 149 : Nat) : Int)) false Nat.one_pos rfl
  exact_mod_cast h

/-- `i2f` is exact up to `2^24`. -/
theorem scaled_i2f {n : Nat} (hn : n ≤ 2 ^ 24) : scaled (i2f n) = (n : Int) * 2 ^ 149 := by
  obtain ⟨m, hm⟩ := exists_magBits_eq 149 hn
  obtain ⟨-, hmag⟩ := mag_pack_exact false hm (by rw [magBits_infBits]; omega)
  rw [i2f, scaled, sgn_pack (roundMag_lt_31 _ _), if_neg Bool.false_ne_true, hmag]
  push_cast; rfl

/-- Settles O56: an integer below `2^32` is far from the overflow. -/
theorem intToFloatRoundsToNearestEven : Obligations.IntToFloatRoundsToNearestEven := by
  refine ⟨fun n hn => (i2f_roundsOnce n).1 ?_, fun n hn => scaled_i2f hn⟩
  rw [abs_one, abs_of_nonneg (by positivity)]
  omega

/-! ## Rounding to an integer -/

/-- The integer `fround` answers is representable: from `2^23` on the operand is an integer, and below it the integer is at
most `2^23`. -/
theorem fround_representable {x : F32} (hx : isFinite x = true) :
    ∃ m, magBits m = (mag x + 2 ^ 148) / 2 ^ 149 * 2 ^ 149 ∧ m < infBits := by
  have hinf := magBits_infBits
  by_cases hbig : (149 + 1) * 2 ^ 23 ≤ low31 x
  · obtain ⟨j, hj⟩ := dvd_magBits hbig
    refine ⟨low31 x, ?_, (isFinite_iff x).1 hx⟩
    rw [mag_eq]; omega
  · have hlt : mag x < 2 ^ 23 * 2 ^ 149 := by
      rw [mag_eq, ← show magBits ((149 + 1) * 2 ^ 23) = 2 ^ 23 * 2 ^ 149 by decide, magBits_lt]; omega
    obtain ⟨m, hm⟩ := exists_magBits_eq (j := (mag x + 2 ^ 148) / 2 ^ 149) 149 (by omega)
    exact ⟨m, hm, by rw [← magBits_lt]; omega⟩

/-- `fround` of a finite operand: finite, of its sign, and the integer part of the magnitude plus a half. -/
theorem fround_finite {x : F32} (hx : isFinite x = true) :
    isFinite (fround x) = true ∧ sgn (fround x) = sgn x ∧
      mag (fround x) = (mag x + 2 ^ 148) / 2 ^ 149 * 2 ^ 149 := by
  obtain ⟨m, hm, hlt⟩ := fround_representable hx
  obtain ⟨hf, hmag⟩ := mag_pack_exact (sgn x) hm (hm ▸ magBits_lt.2 hlt)
  rw [fround, if_pos hx]
  exact ⟨hf, sgn_pack (roundMag_lt_31 _ _), hmag⟩

/-- Settles O57, by `fround_finite`: that integer part is the nearest integer, a half rounded up. -/
theorem roundHalvesAwayFromZero : Obligations.RoundHalvesAwayFromZero := by
  refine ⟨fun x hx => if_neg (by rw [hx]; exact Bool.false_ne_true), fun x hx => ?_⟩
  obtain ⟨hf, hs, hm⟩ := fround_finite hx
  exact ⟨hf, hs, _, hm, by omega, by omega⟩

/-! ## Saturation to an integer -/

/-- `f2i_sat` of a finite operand above zero. -/
theorem f2iSat_pos {x : F32} (hi : Nat) (hx : isFinite x = true) (h : 0 < scaled x) :
    f2iSat x hi = if hi * 2 ^ 149 ≤ mag x then hi else mag x / 2 ^ 149 := by
  simp [f2iSat, not_nan_of_finite hx, not_inf_of_finite hx, not_le.2 h]

/-- `f2i_sat` of a NaN or of a value that is not above zero. -/
theorem f2iSat_eq_zero {x : F32} (hi : Nat) (h : isNaN x = true ∨ scaled x ≤ 0) : f2iSat x hi = 0 :=
  if_pos (by rwa [Bool.or_eq_true, decide_eq_true_eq])

theorem f2iSat_posInf (hi : Nat) : f2iSat 0x7F800000#32 hi = hi := by
  have hn : (isNaN 0x7F800000#32 || decide (scaled 0x7F800000#32 ≤ 0)) = false := by decide
  have hinf : isInf 0x7F800000#32 = true := by decide
  rw [f2iSat, hn, hinf, Bool.true_or, if_neg Bool.false_ne_true, if_pos rfl]

/-- Settles O58: an operand that is not above zero reaches the bound, or equals an integer, only where that is 0. -/
theorem floatToIntSaturates : Obligations.FloatToIntSaturates := by
  intro x hi
  have habs := scaled_natAbs x
  refine ⟨fun h => f2iSat_eq_zero hi (h.imp_right fun hle => ?_), fun hx h => ?_, f2iSat_posInf hi, fun k hx h hk => ?_⟩
  · exact ((fle_iff _ _).1 hle).2.2
  · by_cases h0 : scaled x ≤ 0
    · rw [f2iSat_eq_zero hi (Or.inr h0)]; omega
    · rw [f2iSat_pos hi hx (not_le.1 h0), if_pos (by omega)]
  · by_cases h0 : scaled x ≤ 0
    · rw [f2iSat_eq_zero hi (Or.inr h0)]; omega
    · rw [f2iSat_pos hi hx (not_le.1 h0)]
      split <;> omega

/-- Settles O29: both registers are an integer that `f2i_sat` bounds, raised to at least 1. -/
theorem mapIsTotal : Obligations.MapIsTotal := by
  intro n act cfg
  obtain ⟨hlo, hhi⟩ := delayLength_bounds (rawDelay n (remap n .e act) cfg)
  exact ⟨hlo, hhi, periodSamples_pos n _, Nat.max_le.2 ⟨by decide, f2iSat_le _ _⟩⟩

/-! ## `CNT_GATE` -/

/-- Settles O43: with a period the gate does not fault, and hands over the comparison of R200. -/
theorem counterGateComparesTheIndex : Obligations.CounterGateComparesTheIndex := by
  intro s hp
  obtain ⟨t, ht⟩ := execCntGate_completes (Nat.one_le_iff_ne_zero.1 hp)
  rw [ht, exec_cntGate_ok ht]
  rfl

/-! ## `fsin` -/

/-- Away from `+0.0` it is the realisation's function. -/
theorem fsin_of_ne {x : F32} (h : x ≠ fZero) : fsin x = Config.sinFn.f x := if_neg h

/-- (S1), (S2): at most 1 in magnitude on the finite operands. -/
theorem mag_fsin_le {x : F32} (hx : isFinite x = true) : mag (fsin x) ≤ mag fOne := by
  by_cases h : x = fZero
  · rw [h]; decide
  · rw [fsin_of_ne h]; exact Config.sinFn.bounded x hx

/-- Settles O59: (S1) and (S2) are the one bound on the magnitude, and off the finite operands `x` is not `+0.0`. -/
theorem sineProperties : Obligations.SineProperties := by
  refine ⟨fun x hx => ?_, rfl, fun x hx => ?_⟩
  · have hm := mag_fsin_le hx
    have hf := finite_of_mag_le (hi := 0x3F800000) (by decide) hm
    have hone : scaled 0x3F800000#32 = mag fOne ∧ scaled 0xBF800000#32 = -(mag fOne : Int) := by decide
    have habs := scaled_natAbs (fsin x)
    refine ⟨hf, (between_iff (by decide) (by decide)).2 ⟨not_nan_of_finite hf, ?_, ?_⟩⟩ <;> omega
  · rw [fsin_of_ne (fun h => by rw [h] at hx; cases hx)]
    exact Config.sinFn.nonfinite x hx

/-! ## `fexp2` -/

/-- At a NaN it is the realisation's function. -/
theorem fexp2_nan {x : F32} (hx : isNaN x = true) : fexp2 x = Config.exp2Fn.f x := if_pos hx

/-- Where (E1) or (E3) fixes the value it is that value. -/
theorem fexp2_fixed {x v : F32} (hx : isNaN x = false) (h : exp2Fixed x = some v) : fexp2 x = v := by
  rw [fexp2, exp2With, hx, h]; rfl

/-- Elsewhere it is the realisation's function. -/
theorem fexp2_free {x : F32} (hx : isNaN x = false) (h : exp2Fixed x = none) : fexp2 x = Config.exp2Fn.f x := by
  rw [fexp2, exp2With, hx, h]; rfl

/-- From 128 on it is the infinity. -/
theorem fexp2_ge_128 {x : F32} (hx : isNaN x = false) (h : 128 * 2 ^ 149 ≤ scaled x) : fexp2 x = 0x7F800000#32 :=
  fexp2_fixed hx (if_pos h)

/-- (E1): at an integer it is the power of two, whose biased exponent is the integer plus 127. -/
theorem fexp2_integer {x : F32} {k : Int} (hx : isNaN x = false) (h : scaled x = k * 2 ^ 149) (hlo : -126 ≤ k)
    (hhi : k ≤ 127) : fexp2 x = pack false ((k + 127).toNat * 2 ^ 23) := by
  have hinf : isInf x ≠ true := fun hinf => by
    have := Config.scaled_of_isInf hinf (by omega)
    omega
  have hdiv : scaled x / 2 ^ 149 = k := by omega
  have hint : scaled x % 2 ^ 149 = 0 ∧ -126 ≤ scaled x / 2 ^ 149 := by omega
  refine fexp2_fixed hx ?_
  rw [exp2Fixed, if_neg (by omega), if_neg hinf, if_pos hint, hdiv]

/-- A biased exponent below the last is a finite power of two, or zero. -/
theorem pow2_finite_nonneg {c : Nat} (hc : c < 255) :
    isFinite (pack false (c * 2 ^ 23)) = true ∧ 0 ≤ scaled (pack false (c * 2 ^ 23)) := by
  have hm : c * 2 ^ 23 < infBits := by simp only [infBits]; omega
  rw [scaled_pack (hm.trans (by decide))]
  exact ⟨isFinite_pack hm, Int.natCast_nonneg _⟩

/-- Below 128 a fixed value is zero or a finite power of two. -/
theorem exp2Fixed_lt_128 {x v : F32} (h : scaled x < 128 * 2 ^ 149) (hv : exp2Fixed x = some v) :
    isFinite v = true ∧ 0 ≤ scaled v := by
  rw [exp2Fixed, if_neg (not_le.2 h)] at hv
  split at hv
  · cases hv; decide
  · split at hv
    · cases hv; exact pow2_finite_nonneg (by omega)
    · cases hv

/-- (E3): below 128 it is finite and not below zero, at its fixed points and elsewhere. -/
theorem fexp2_lt_128 {x : F32} (hx : isNaN x = false) (h : scaled x < 128 * 2 ^ 149) :
    isFinite (fexp2 x) = true ∧ 0 ≤ scaled (fexp2 x) := by
  cases hfix : exp2Fixed x with
  | none => rw [fexp2_free hx hfix]; exact Config.exp2Fn.finite x hx hfix
  | some v => rw [fexp2_fixed hx hfix]; exact exp2Fixed_lt_128 h hfix

/-- Off the NaNs it answers no NaN. -/
theorem isNaN_fexp2 {x : F32} (hx : isNaN x = false) : isNaN (fexp2 x) = false := by
  by_cases h : 128 * 2 ^ 149 ≤ scaled x
  · rw [fexp2_ge_128 hx h]; decide
  · exact not_nan_of_finite (fexp2_lt_128 hx (not_le.1 h)).1

/-- Settles O60: (E1) by `fexp2_integer`, (E2) by the monotonicity of every conforming function, (E3) by the operand's side
of 128. -/
theorem exp2Properties : Obligations.Exp2Properties := by
  have h128 : scaled 0x43000000#32 = 128 * 2 ^ 149 := by decide
  have hzero : isNaN 0x00000000#32 = false ∧ scaled 0x00000000#32 = 0 := by decide
  refine ⟨fun x k hx h hlo hhi => ?_, fun x y h => ?_, fun x h => ?_, rfl, fun x hx => ?_, fun x h => ?_⟩
  · rw [fexp2_integer hx h hlo hhi]
    have hc := Config.scaled_pow2_mono ⟨(k + 127).toNat, by omega⟩
    simp only [if_neg (show (k + 127).toNat ≠ 0 by omega)] at hc
    refine ⟨isFinite_pack (by simp only [infBits]; omega), hc.trans ?_⟩
    congr 1; omega
  · obtain ⟨hx, hy, hle⟩ := (fle_iff x y).1 h
    exact (fle_iff _ _).2 ⟨isNaN_fexp2 hx, isNaN_fexp2 hy, Config.exp2Fn.mono x y hx hy hle⟩
  · obtain ⟨-, hx, hle⟩ := (fle_iff _ x).1 h
    exact fexp2_ge_128 hx (h128 ▸ hle)
  · rw [fexp2_nan hx]; exact Config.exp2Fn.nonfinite x hx
  · obtain ⟨hx, -, hlt⟩ := (flt_iff x _).1 h
    obtain ⟨hf, h0⟩ := fexp2_lt_128 hx (h128 ▸ hlt)
    exact ⟨hf, (fle_iff _ _).2 ⟨hzero.1, not_nan_of_finite hf, hzero.2 ▸ h0⟩⟩

end Sys2Proof.Proofs

/-! PROOF. The Parameter Channel over runs (41_param_channel.md): `PUSH` in full (R133), the pop loop (R137), last write wins
(R140) and the overflow scenario (R141), each read off the list of entries held. -/

namespace Sys2Proof.Proofs

open Sys2Proof.Machine Sys2Proof.Safety Sys2Proof.Laws
open Host (Outcome)

/-! ## PUSH -/

/-- The count is `CAP` when the cursors are `CAP` apart modulo `2*CAP`. -/
theorem queueCount_eq_cap_iff (wr rd : Nat) : queueCount wr rd = 200 ↔ ((wr : Int) - rd) % 400 = 200 := by
  simp only [queueCount, Config.cap]; omega

/-- Settles O13: the two cases of `execPush_cases`, the count read as the distance of the cursors. -/
theorem pushEnqueuesOrDrops : Obligations.PushEnqueuesOrDrops := by
  intro p s
  rcases execPush_cases p s with ⟨hc, he⟩ | ⟨hc, he⟩
  · rw [if_pos ((queueCount_eq_cap_iff _ _).1 hc)]; exact he
  · rw [if_neg (mt (queueCount_eq_cap_iff _ _).2 hc)]; exact he

/-! ## DRAIN_LATEST as a loop of pops -/

/-- With nothing held a state is the one that draining it leaves. -/
theorem eq_drained {s : State} (hi : Inv s) (hc : queueCount s.wr s.rd = 0) : s = { s with pq := [], rd := s.wr } :=
  congrArg₂ (fun q r => { s with pq := q, rd := r }) (pq_eq_nil hi hc)
    (eq_of_queueCount_zero hi.wrRange hi.rdRange hc).symm

/-- From the invariants `DRAIN_LATEST` answers the last entry held and leaves nothing held, also where nothing was. -/
theorem drainLatest_eq {s : State} (hi : Inv s) :
    drainLatest s = .ok ((held s).getLast?, { s with pq := [], rd := s.wr }) := by
  by_cases hc : queueCount s.wr s.rd = 0
  · rw [drainLatest_empty hc, held_eq_nil hc, ← eq_drained hi hc]; rfl
  · obtain ⟨p, hp⟩ := newest_written hi hc
    rw [drainLatest_pending hc hp, getLast?_held hc hp]

/-- The ring indexes seen from the cursor after a pop. -/
theorem ringIndex_cursorNext_add (rd i : Nat) : ringIndex (cursorNext rd + i) = ringIndex (rd + (i + 1)) := by
  simp only [ringIndex, cursorNext, Config.cap]; omega

/-- No other entry held lies at the index of the oldest one. -/
theorem ringIndex_pop_ne {rd i : Nat} (h : i + 1 < 200) : ringIndex (rd + (i + 1)) ≠ ringIndex rd := by
  simp only [ringIndex, Config.cap]; omega

/-- The state after a pop: the oldest entry freed, the consumer cursor moved on. -/
def popped (s : State) : State := { s with pq := s.pq.erase (ringIndex s.rd), rd := cursorNext s.rd }

theorem popped_count {s : State} (h : queueCount s.wr s.rd ≠ 0) :
    queueCount (popped s).wr (popped s).rd = queueCount s.wr s.rd - 1 := queueCount_pop h

/-- The entries still held read as before the pop. -/
theorem popped_read {s : State} {i : Nat} (h : i + 1 < 200) :
    (popped s).pq.read (ringIndex ((popped s).rd + i)) = s.pq.read (ringIndex (s.rd + (i + 1))) := by
  simp only [popped, ringIndex_cursorNext_add]
  exact read_erase_other _ (ringIndex_pop_ne h)

/-- A pop keeps the invariants. -/
theorem inv_popped {s : State} (hi : Inv s) (hc : queueCount s.wr s.rd ≠ 0) : Inv (popped s) := by
  have hle : queueCount s.wr s.rd ≤ 200 := hi.countLe
  have hcount := popped_count hc
  exact { hi with
    rdRange := Nat.mod_lt _ (by decide)
    countLe := by rw [hcount]; exact (Nat.sub_le _ _).trans hle
    ringWf := erase_wf _ hi.ringWf
    liveWritten := by
      intro i hlt
      rw [popped_read (by omega)]
      exact hi.liveWritten (i + 1) (by omega)
    heldOnly := by
      intro e he
      obtain ⟨hmem, hne⟩ := mem_erase he
      obtain ⟨i, hlt, hidx⟩ := hi.heldOnly e hmem
      obtain _ | i := i
      · exact absurd hidx hne
      · exact ⟨i, by omega, hidx.trans (ringIndex_cursorNext_add _ _).symm⟩ }

/-- A pop takes the first entry off the list of entries held. -/
theorem held_popped {s : State} {q : Snapshot} (hi : Inv s) (hc : queueCount s.wr s.rd ≠ 0)
    (hq : s.pq.read (ringIndex s.rd) = some q) : held s = q :: held (popped s) := by
  have hle : queueCount s.wr s.rd ≤ 200 := hi.countLe
  obtain ⟨n, hn⟩ := Nat.exists_eq_succ_of_ne_zero hc
  have hrest : (List.range n).filterMap (fun i => s.pq.read (ringIndex (s.rd + (i + 1)))) = held (popped s) := by
    unfold held
    rw [popped_count hc, hn]
    refine List.filterMap_congr fun i hlt => (popped_read ?_).symm
    have := List.mem_range.1 hlt
    omega
  rw [← hrest]
  unfold held
  rw [hn, List.range_succ_eq_map]
  simp only [List.filterMap_cons, Nat.add_zero, hq, List.filterMap_map]
  rfl

/-- `POP` answers nothing when nothing is held. -/
theorem popOldest_empty {s : State} (hc : queueCount s.wr s.rd = 0) : popOldest s = none := if_pos hc

/-- From the invariants `POP` answers the first entry held. -/
theorem popOldest_pending {s : State} (hi : Inv s) (hc : queueCount s.wr s.rd ≠ 0) :
    ∃ q, popOldest s = some (q, popped s) ∧ held s = q :: held (popped s) := by
  obtain ⟨q, hq⟩ := Option.isSome_iff_exists.1 (hi.liveWritten 0 (by omega))
  refine ⟨q, ?_, held_popped hi hc hq⟩
  unfold popOldest
  rw [if_neg hc, show s.pq.read (ringIndex s.rd) = some q from hq]
  rfl

/-- The loop answers the last entry held, or what it was given where nothing is, and leaves the state `DRAIN_LATEST`
leaves. -/
theorem popLoop_eq {fuel : Nat} {s : State} (last : Option Snapshot) (hi : Inv s) (hf : queueCount s.wr s.rd ≤ fuel) :
    popLoop fuel last s = ((held s).getLast?.or last, { s with pq := [], rd := s.wr }) := by
  induction fuel generalizing s last with
  | zero =>
    have hc := Nat.le_zero.1 hf
    rw [held_eq_nil hc, ← eq_drained hi hc]; rfl
  | succ fuel ih =>
    by_cases hc : queueCount s.wr s.rd = 0
    · rw [popLoop, popOldest_empty hc, held_eq_nil hc, ← eq_drained hi hc]; rfl
    · obtain ⟨q, hpop, hheld⟩ := popOldest_pending hi hc
      have hfuel : queueCount (popped s).wr (popped s).rd ≤ fuel := by rw [popped_count hc]; omega
      have hor : (q :: held (popped s)).getLast?.or last = (held (popped s)).getLast?.or (some q) := by
        rw [List.getLast?_cons]; cases (held (popped s)).getLast? <;> rfl
      rw [popLoop, hpop, hheld, hor]
      exact ih (some q) (inv_popped hi hc) hfuel

/-- Settles O17: both answer the last entry held and leave nothing held. -/
theorem drainIsThePopLoop : Obligations.DrainIsThePopLoop := by
  intro s fuel hi hf
  rw [drainLatest_eq hi, popLoop_eq none hi hf, Option.or_none]

/-! ## Last write wins -/

/-- From the invariants `FRAME` applies the last entry held and empties the queue. -/
theorem execFrame_applies_last {s : State} {p : Snapshot} (hi : Inv s) (hp : (held s).getLast? = some p) :
    ∃ t, exec .frame s = .next t ∧ t.act = p ∧ queueCount t.wr t.rd = 0 := by
  have hd := drainLatest_eq hi
  rw [hp] at hd
  change ∃ t, execFrame s = .next t ∧ _
  refine ⟨_, by unfold execFrame; rw [hd], ?_⟩
  rw [resizeIfChanged_eq]
  exact ⟨rfl, queueCount_self s.wr⟩

/-- Everything a completed `PUSH` can do to the list of entries held. -/
theorem exec_push_held_cases {p : Snapshot} {s t : State} (hi : Inv s) (h : exec (.push p) s = .next t) :
    ((held s).length = 200 ∧ t.pOk = false ∧ held t = held s) ∨
    ((held s).length ≠ 200 ∧ t.pOk = true ∧ held t = held s ++ [p]) := by
  obtain ⟨u, hu, hfull, hroom⟩ := push_held hi p
  obtain rfl : u = t := Outcome.next.inj (hu.symm.trans h)
  by_cases hlen : (held s).length = 200
  · exact Or.inl ⟨hlen, hfull hlen⟩
  · exact Or.inr ⟨hlen, hroom hlen⟩

/-- An accepted push makes its snapshot the last entry held. -/
theorem getLast?_held_push {p : Snapshot} {s t : State} (hi : Inv s) (h : exec (.push p) s = .next t)
    (hok : t.pOk = true) : (held t).getLast? = some p := by
  rcases exec_push_held_cases hi h with ⟨-, hno, -⟩ | ⟨-, -, hheld⟩
  · rw [hno] at hok; cases hok
  · rw [hheld, List.getLast?_concat]

/-- A refused push leaves the entries held. -/
theorem held_push_refused {p : Snapshot} {s t : State} (hi : Inv s) (h : exec (.push p) s = .next t)
    (hno : t.pOk = false) : held t = held s := by
  rcases exec_push_held_cases hi h with ⟨-, -, hheld⟩ | ⟨-, hok, -⟩
  · exact hheld
  · rw [hno] at hok; cases hok

/-- A word of a port that is no `FRAME` and no accepted push leaves the entries held. -/
theorem port_keeps_held {x : Input} {s t : State} (hi : Inv s) (hx : isPort x = true) (hf : isFrame x = false)
    (h : accept x s = .next t) (hpush : isPush x = true → t.pOk = false) : held t = held s := by
  rcases port_accept_cases hx h with rfl | ⟨e, rfl⟩ | ⟨p, hp, he⟩ | ⟨hf', -⟩ | ⟨-, he⟩
  · rfl
  · rfl
  · exact held_push_refused hi he (hpush hp)
  · rw [hf] at hf'; cases hf'
  · obtain ⟨old, rest, -, -, -, ht⟩ := execTick_frame he
    rw [ht]; rfl

/-- After an event that completes the other events are fed to its result. -/
theorem feed_cons_of_next {x : Input} {s u : State} (h : accept x s = .next u) (xs : List Input) :
    feed (x :: xs) s = feed xs u := by rw [feed, h]

/-- A run that completes is its first event and then a run of the others. -/
theorem feed_cons_ok {x : Input} {xs : List Input} {s t : State} (h : feed (x :: xs) s = .next t) :
    ∃ u, accept x s = .next u ∧ feed xs u = .next t := by
  rw [feed] at h
  split at h
  · exact ⟨_, ‹_›, h⟩
  · cases h
  · cases h

/-- A run of such words keeps the invariants and the entries held. -/
theorem feed_keeps_held {xs : List Input} {s t : State} (hi : Inv s)
    (hport : ∀ x ∈ xs, isPort x = true ∧ isFrame x = false)
    (hpush : ∀ (ys zs : List Input) (x : Input) (u v : State), xs = ys ++ x :: zs → isPush x = true →
      feed ys s = .next u → accept x u = .next v → v.pOk = false)
    (h : feed xs s = .next t) : Inv t ∧ held t = held s := by
  induction xs generalizing s with
  | nil => cases h; exact ⟨hi, rfl⟩
  | cons x xs ih =>
    obtain ⟨u, hu, hrest⟩ := feed_cons_ok h
    obtain ⟨⟨hx, hf⟩, hports⟩ := List.forall_mem_cons.1 hport
    have hheld := port_keeps_held hi hx hf hu fun hp => hpush [] xs x s u rfl hp rfl hu
    have hpushes : ∀ (ys zs : List Input) (y : Input) (v w : State), xs = ys ++ y :: zs → isPush y = true →
        feed ys u = .next v → accept y v = .next w → w.pOk = false := fun ys zs y v w hxs hp hys hw =>
      hpush (x :: ys) zs y v w (congrArg (x :: ·) hxs) hp ((feed_cons_of_next hu ys).trans hys) hw
    obtain ⟨hit, ht⟩ := ih (accept_keeps_inv hi hu) hports hpushes hrest
    exact ⟨hit, ht.trans hheld⟩

/-- Settles O18: the accepted push is the last entry held, the words after it leave the entries held. -/
theorem frameAppliesTheNewestAcceptedPush : Obligations.FrameAppliesTheNewestAcceptedPush := by
  intro s s1 s2 p xs hi hp hok hport hpush h
  obtain ⟨hi2, hheld⟩ := feed_keeps_held (execPush_keeps_inv hi hp) hport hpush h
  exact execFrame_applies_last hi2 (hheld ▸ getLast?_held_push hi hp hok)

/-! ## The overflow scenario -/

/-- The event that presents a `PUSH` runs it. -/
theorem accept_present_push (p : Snapshot) (s : State) : accept (present (.push p)) s = exec (.push p) s :=
  accept_of_decode (decodeOfEncode (.push p) rfl) s

/-- Pushes complete, and of the entries held and those pushed the first 200 are then held. -/
theorem feed_pushes {s : State} (ps : List Snapshot) (hi : Inv s) :
    ∃ t, feed (ps.map fun p => present (.push p)) s = .next t ∧ Inv t ∧ held t = (held s ++ ps).take 200 := by
  induction ps generalizing s with
  | nil =>
    refine ⟨s, rfl, hi, ?_⟩
    have hle : (held s).length ≤ 200 := (length_held hi).trans_le hi.countLe
    rw [List.append_nil, List.take_of_length_le hle]
  | cons p ps ih =>
    obtain ⟨u, hu⟩ := execPush_completes p s
    obtain ⟨t, ht, hit, hheld⟩ := ih (execPush_keeps_inv hi hu)
    refine ⟨t, (feed_cons_of_next ((accept_present_push p s).trans hu) _).trans ht, hit, ?_⟩
    rw [hheld]
    rcases exec_push_held_cases hi hu with ⟨hlen, -, hfull⟩ | ⟨-, -, hroom⟩
    · rw [hfull, List.take_left' hlen, List.take_left' hlen]
    · rw [hroom, List.append_assoc]; rfl

/-- The last of at least one push has `P_OK` as there was room for it. -/
theorem feed_pushes_pOk {s : State} (ps : List Snapshot) (p : Snapshot) (hi : Inv s) :
    ∃ t, feed ((ps ++ [p]).map fun p => present (.push p)) s = .next t ∧
      t.pOk = decide ((held s).length + ps.length < 200) := by
  obtain ⟨u, hu, hiu, hheld⟩ := feed_pushes ps hi
  obtain ⟨t, ht⟩ := execPush_completes p u
  have hlen : (held u).length = min 200 ((held s).length + ps.length) := by
    rw [hheld, List.length_take, List.length_append]
  refine ⟨t, ?_, ?_⟩
  · rw [List.map_append, feed_append, hu]
    exact feed_cons_of_next ((accept_present_push p u).trans ht) []
  · rcases exec_push_held_cases hiu ht with ⟨hfull, hok, -⟩ | ⟨hroom, hok, -⟩
    · rw [hok, decide_eq_false (by omega)]
    · rw [hok, decide_eq_true (by omega)]

/-- A push into an empty queue is accepted. -/
theorem execPush_accepted_of_empty {s : State} (h : queueCount s.wr s.rd = 0) (q : Snapshot) :
    ∃ t, exec (.push q) s = .next t ∧ t.pOk = true := by
  rcases execPush_cases q s with ⟨hc, -⟩ | ⟨-, he⟩
  · omega
  · exact ⟨_, he, rfl⟩

/-- Settles O19: the `k`-th push finds `min (k - 1) 200` entries held, and the last of the first 200 is the 200th. -/
theorem overflowDropsTheNewest : Obligations.OverflowDropsTheNewest := by
  intro s ps hi hc
  refine ⟨fun k h1 hk => ?_, fun hlen => ?_⟩
  · obtain ⟨k, rfl⟩ := Nat.exists_eq_add_of_le' h1
    obtain ⟨t, ht, hok⟩ := feed_pushes_pOk (ps.take k) ps[k] hi
    refine ⟨t, by rw [← List.take_concat_get' ps k hk]; exact ht, hok.trans ?_⟩
    rw [held_eq_nil hc, List.length_take_of_le (Nat.le_of_succ_le hk), List.length_nil, Nat.zero_add]
    rfl
  · obtain ⟨t, ht, hit, hheld⟩ := feed_pushes ps hi
    have hlast : (held t).getLast? = some ps[199] := by
      rw [hheld, held_eq_nil hc, List.nil_append]
      simp [List.getLast?_take]
    obtain ⟨u, hu, hact, hempty⟩ := execFrame_applies_last hit hlast
    exact ⟨t, u, ht, hu, by rw [hact]; exact List.getElem?_eq_getElem hlen, hempty, execPush_accepted_of_empty hempty⟩

end Sys2Proof.Proofs

/-! PROOF. `MAP` as one event (42_param_mapper.md R163): which mapping each select of `CFG` picks, and the one state change. -/

namespace Sys2Proof.Proofs

open Sys2Proof.Machine

/-! ## The three mapping selects, read on the bit that is clear -/

/-- The model branches on a bit that is set, the rules on a bit that is clear. -/
theorem ite_bit_clear {α : Type} (b : Bool) (x y : α) : (if b = false then x else y) = if b then y else x := by
  cases b <;> rfl

/-- `CFG[2] = 0` picks `EXP` (R155). -/
theorem fmRateOf_select (n : Nat) (cN : F32) (cfg : BitVec 8) :
    fmRateOf n cN cfg = if cfg.getLsbD 2 = false then fexp2 (fmul (Config.nanAt n .fmRateMul) cN fEight)
      else fmul (Config.nanAt n .fmRateMul) fTwo cN :=
  (ite_bit_clear _ _ _).symm

/-- `CFG[3] = 0` picks `FRAC` (R157). -/
theorem fmDepthOf_select (n : Nat) (dN : F32) (cfg : BitVec 8) :
    fmDepthOf n dN cfg = if cfg.getLsbD 3 = false then fmul (Config.nanAt n .fmDepthMul) dN fTwo
      else fexp2 (fadd (Config.nanAt n .fmDepthAdd) fFive (fmul (Config.nanAt n .fmDepthMul) dN fNine)) :=
  (ite_bit_clear _ _ _).symm

/-- `CFG[4] = 0` picks `EXP` (R160). -/
theorem rawDelay_select (n : Nat) (eN : F32) (cfg : BitVec 8) :
    rawDelay n eN cfg = if cfg.getLsbD 4 = false then fexp2 (fmul (Config.nanAt n .rawMul) eN fFour)
      else fmul (Config.nanAt n .rawMul) eN Config.sr :=
  (ite_bit_clear _ _ _).symm

/-! ## MAP -/

/-- `MAP` refills the derived registers; of the rest only the model's own draw number and result field change. -/
theorem exec_map (s : State) :
    exec .map s = .next { s with
      derived := mapRegs s.draws s.act s.cfg
      draws := s.draws + 1
      unitOut := .nothing } := rfl

/-- Settles O28: `exec_map`, with the three selected registers rewritten by their selects. -/
theorem mapComputesTheDerivedRegisters : Obligations.MapComputesTheDerivedRegisters := by
  intro s
  rw [exec_map, mapRegs, fmRateOf_select, fmDepthOf_select, rawDelay_select]
  rfl

end Sys2Proof.Proofs

/-! PROOF. The Noise Generator (43_noise_generator.md): the scaled value is exact (R172), the seed's step is one to one (R171,
R173), and only `TICK` steps the seed (R170, R174). -/

namespace Sys2Proof.Proofs

open Sys2Proof.Machine Sys2Proof.Safety Sys2Proof.Laws

/-! ## The noise value -/

/-- `n` is a signed integer of 24 bits. -/
theorem noiseInt_bounds (x : BitVec 32) : -2 ^ 23 ≤ noiseInt x ∧ noiseInt x < 2 ^ 23 :=
  ⟨BitVec.le_toInt _, BitVec.toInt_lt⟩

/-- The noise value is finite and is `n` units of `2^-23`: at most `2^23` such units are a representable magnitude. -/
theorem prngOut_exact (x : BitVec 32) : isFinite (prngOut x) = true ∧ scaled (prngOut x) = noiseInt x * 2 ^ 126 := by
  obtain ⟨hlo, hhi⟩ := noiseInt_bounds x
  have hinf := magBits_infBits
  obtain ⟨m, hm⟩ := exists_magBits_eq (j := (noiseInt x).natAbs) 126 (by omega)
  obtain ⟨hf, hmag⟩ := mag_pack_exact (decide (noiseInt x < 0)) hm (by omega)
  refine ⟨hf, ?_⟩
  rw [prngOut, scaled, sgn_pack (roundMag_lt_31 _ _), hmag]
  by_cases hneg : noiseInt x < 0
  · rw [if_pos (decide_eq_true hneg)]; omega
  · rw [if_neg (by simpa using hneg)]; omega

/-- `n = 0` gives `+0.0`. -/
theorem prngOut_of_noiseInt_zero {x : BitVec 32} (h : noiseInt x = 0) : prngOut x = fZero := by
  rw [prngOut, h]; decide

/-- Settles O33: `prngOut_exact`, with the range of `n` scaled by `2^-23`. -/
theorem noiseValueIsExact : Obligations.NoiseValueIsExact := by
  intro x
  obtain ⟨hf, hv⟩ := prngOut_exact x
  obtain ⟨hlo, hhi⟩ := noiseInt_bounds x
  have hnan := not_nan_of_finite hf
  have hneg : scaled 0xBF800000#32 = -2 ^ 149 := by decide
  have hone : scaled 0x3F800000#32 = 2 ^ 149 := by decide
  refine ⟨hf, ?_, (fle_iff _ _).2 ⟨by decide, hnan, ?_⟩, (flt_iff _ _).2 ⟨hnan, by decide, ?_⟩, fun h => ?_⟩
  · rw [hv, noiseInt]; omega
  · rw [hneg, hv]; omega
  · rw [hone, hv]; omega
  · exact prngOut_of_noiseInt_zero (by rw [noiseInt, h]; rfl)

/-! ## The step of the seed -/

/-- Each of the three stages of the step is linear over the bits. -/
theorem xor_shiftLeft_linear (x y : BitVec 32) (k : Nat) :
    (x ^^^ y) ^^^ (x ^^^ y) <<< k = (x ^^^ x <<< k) ^^^ (y ^^^ y <<< k) := by
  rw [BitVec.shiftLeft_xor_distrib]; ac_rfl

theorem xor_ushiftRight_linear (x y : BitVec 32) (k : Nat) :
    (x ^^^ y) ^^^ (x ^^^ y) >>> k = (x ^^^ x >>> k) ^^^ (y ^^^ y >>> k) := by
  rw [BitVec.ushiftRight_xor_distrib]; ac_rfl

/-- And so is the step. -/
theorem prngStep_xor (x y : BitVec 32) : prngStep (x ^^^ y) = prngStep x ^^^ prngStep y := by
  rw [prngStep, xor_shiftLeft_linear x y 13, xor_ushiftRight_linear _ _ 17, xor_shiftLeft_linear _ _ 5]
  rfl

/-- Zero is a fixed point of the step, and no other seed leads to it. -/
theorem prngStep_eq_zero_iff (x : BitVec 32) : prngStep x = 0#32 ↔ x = 0#32 :=
  ⟨fun h => by_contra fun hx => prngStep_ne_zero hx h, fun h => by rw [h]; rfl⟩

/-- Settles O34: the step is linear and its kernel is zero. -/
theorem prngStepIsInjective : Obligations.PrngStepIsInjective := by
  refine ⟨fun x y h => ?_, prngStep_eq_zero_iff⟩
  rw [← BitVec.xor_eq_zero_iff, ← prngStep_xor, prngStep_eq_zero_iff, BitVec.xor_eq_zero_iff] at h
  exact h

/-- `NOISE_STEP` runs the configured generator on the seed and hands over its value. -/
theorem exec_noiseStep (s : State) :
    exec .noiseStep s = .next { s with seed := prngStep s.seed, unitOut := .sample (prngOut (prngStep s.seed)) } := rfl

/-- Settles O32: the statement writes out the three shifts of `prngStep`. -/
theorem noiseStepAdvancesTheSeed : Obligations.NoiseStepAdvancesTheSeed := exec_noiseStep

/-! ## The seed along a run -/

/-- A `TICK` steps the seed once. -/
theorem execTick_seed {s t : State} (h : exec .tick s = .next t) : t.seed = prngStep s.seed := by
  obtain ⟨old, rest, -, -, -, ht⟩ := execTick_frame h
  rw [ht]

/-- A `FRAME` leaves it. -/
theorem execFrame_seed {s t : State} (h : exec .frame s = .next t) : t.seed = s.seed := by
  rcases execFrame_cases h with ⟨-, rfl⟩ | ⟨p, -, -, rfl⟩
  · rfl
  · rw [resizeIfChanged_eq]; rfl

/-- A word of a port that is no `TICK` leaves the seed. -/
theorem port_keeps_seed {x : Input} {s t : State} (hx : isPort x = true) (hn : isTick x = false)
    (h : accept x s = .next t) : t.seed = s.seed := by
  rcases port_accept_cases hx h with rfl | ⟨e, rfl⟩ | ⟨p, -, he⟩ | ⟨-, he⟩ | ⟨ht, -⟩
  · rfl
  · rfl
  · rw [execPush_frame he]
  · exact execFrame_seed he
  · rw [hn] at ht; cases ht

/-- Settles O35: by induction on the words, each of which steps the seed if it is a `TICK` and else leaves it. -/
theorem noiseDependsOnSeedAndTicksOnly : Obligations.NoiseDependsOnSeedAndTicksOnly := by
  intro xs
  induction xs with
  | nil => intro s t _ h; cases h; rfl
  | cons x xs ih =>
    intro s t hports h
    obtain ⟨u, hu, hrest⟩ := feed_cons_ok h
    obtain ⟨hx, hxs⟩ := List.forall_mem_cons.1 hports
    rw [ih u t hxs hrest]
    cases htick : isTick x with
    | true =>
      have hseed := execTick_seed ((accept_tick htick s).symm.trans hu)
      rw [hseed, List.countP_cons_of_pos htick, Function.iterate_succ_apply]
    | false =>
      rw [port_keeps_seed hx htick hu, List.countP_cons_of_neg (by simp [htick])]

end Sys2Proof.Proofs

/-! PROOF. The Delay Line (44_delay_line.md): one call shifts the sequence by one place (R181), so the operands come out in
the order they went in, after what the sequence held (R186, R187); and the comb filter that `TICK` makes of it (R230). -/

namespace Sys2Proof.Proofs

open Sys2Proof.Machine Sys2Proof.Safety Sys2Proof.Laws

/-! ## One call -/

/-- On a non-empty sequence `DL_TICK` hands over the oldest sample and appends its operand. -/
theorem exec_dlTick_cons {y : F32} {rest : List F32} {s : State} (hd : s.dl = y :: rest) (x : F32) :
    exec (.dlTick x) s = .next { s with dl := rest ++ [x], unitOut := .sample y } := by
  change execDlTick x s = _
  simp only [execDlTick, dlTick, hd, shiftDelay]
  rfl

/-- On an empty one it faults (R183). -/
theorem exec_dlTick_nil {s : State} (hd : s.dl = []) (x : F32) : exec (.dlTick x) s = .fault .dlEmpty := by
  change execDlTick x s = _
  simp only [execDlTick, dlTick, hd, shiftDelay]

/-- Settles O36: the two cases of the sequence. -/
theorem delayTickShiftsOnePlace : Obligations.DelayTickShiftsOnePlace :=
  ⟨fun x _ _ _ hd => exec_dlTick_cons hd x, fun x _ hd => exec_dlTick_nil hd x⟩

/-- `DL_RESIZE` refills the sequence with zeros, whatever it held, and hands over nothing (R184). -/
theorem exec_dlResize (len : Nat) (s : State) :
    exec (.dlResize len) s = .next { s with dl := zeros (clampLength len), unitOut := .nothing } := rfl

/-- Settles O37: the statement writes out `zeros` and `clampLength`. -/
theorem delayResizeClearsToClampedLength : Obligations.DelayResizeClearsToClampedLength := exec_dlResize

/-! ## A run of calls -/

/-- The results of a run are the oldest sample and then the results of the other calls. -/
theorem delayResults_cons {y : F32} {rest : List F32} {s : State} (hd : s.dl = y :: rest) (x : F32) (xs : List F32) :
    delayResults (x :: xs) s = (delayResults xs { s with dl := rest ++ [x], unitOut := .sample y }).map
      fun r => (y :: r.1, r.2) := by
  rw [delayResults, exec_dlTick_cons hd]

/-- The queue law: a run completes with one result per operand, and the results followed by what the sequence then holds
are what it held followed by the operands. -/
theorem delayResults_queue (xs : List F32) {s : State} (hd : s.dl ≠ []) :
    ∃ ys t, delayResults xs s = some (ys, t) ∧ ys.length = xs.length ∧ ys ++ t.dl = s.dl ++ xs := by
  induction xs generalizing s with
  | nil => exact ⟨[], s, rfl, rfl, (List.append_nil s.dl).symm⟩
  | cons x xs ih =>
    obtain ⟨y, rest, hd⟩ := List.exists_cons_of_ne_nil hd
    have hd' : ({ s with dl := rest ++ [x], unitOut := .sample y } : State).dl ≠ [] := List.concat_ne_nil x rest
    obtain ⟨ys, t, hrun, hlen, hqueue⟩ := ih hd'
    refine ⟨y :: ys, t, ?_, congrArg Nat.succ hlen, ?_⟩
    · rw [delayResults_cons hd, hrun]; rfl
    · rw [hd, List.cons_append, hqueue]; simp

/-- Settles O38, by the queue law: place `k + N` is a result on one side and operand `k` on the other. -/
theorem delayLineIsAPureDelay : Obligations.DelayLineIsAPureDelay := by
  intro xs s hd
  obtain ⟨ys, t, hrun, hlen, hqueue⟩ := delayResults_queue xs hd
  refine ⟨ys, t, hrun, ?_, hlen, fun k hk => ?_⟩
  · have htotal := congrArg List.length hqueue
    simp only [List.length_append] at htotal
    omega
  · calc ys[k + s.dl.length]? = (ys ++ t.dl)[k + s.dl.length]? := (List.getElem?_append_left (hlen ▸ hk)).symm
      _ = (s.dl ++ xs)[k + s.dl.length]? := by rw [hqueue]
      _ = xs[k]? := by rw [List.getElem?_append_right (Nat.le_add_left _ _), Nat.add_sub_cancel]

/-- Settles O39, by the queue law: the results are the first of the zeros the resize left. -/
theorem resizedDelayReturnsZeros : Obligations.ResizedDelayReturnsZeros := by
  intro len xs s t h hle
  change xs.length ≤ clampLength len at hle
  have hdl : t.dl = zeros (clampLength len) := by cases h; rfl
  have hzeros : t.dl.length = clampLength len := by rw [hdl, length_zeros]
  have hne : t.dl ≠ [] := List.ne_nil_of_length_pos (hzeros ▸ clampLength_pos len)
  obtain ⟨ys, u, hrun, hlen, hqueue⟩ := delayResults_queue xs hne
  refine ⟨u, hrun.trans (congrArg (fun zs => some (zs, u)) ?_)⟩
  calc ys = (ys ++ u.dl).take xs.length := (List.take_left' hlen).symm
    _ = t.dl.take xs.length := by rw [hqueue, List.take_append_of_le_length (hzeros ▸ hle)]
    _ = List.replicate xs.length fZero := by rw [hdl, zeros, List.take_replicate, Nat.min_eq_left hle]

/-! ## The comb filter -/

/-- The event that presents a `TICK` runs it. -/
theorem accept_present_tick (s : State) : accept (present .tick) s = exec .tick s := accept_tick rfl s

/-- One `TICK` presented alone. -/
theorem exec_tick_of_feed {s t : State} (h : feed [present .tick] s = .next t) : exec .tick s = .next t := by
  obtain ⟨u, hu, hrest⟩ := feed_cons_ok h
  cases hrest
  exact (accept_present_tick s).symm.trans hu

/-- On the delay line `TICK` is one call, whose operand is the noise and the oldest sample mixed (R228); it keeps the
derived registers. -/
theorem execTick_dl {s t : State} (h : exec .tick s = .next t) : ∃ old rest, s.dl = old :: rest ∧
    t.dl = rest ++ [combMix s.draws (prngOut (prngStep s.seed)) s.derived.depth s.derived.fbg old] ∧
    t.derived = s.derived := by
  obtain ⟨old, rest, hd, -, -, ht⟩ := execTick_frame h
  rw [ht]
  exact ⟨old, rest, hd, rfl, rfl⟩

/-- As many `TICK`s as there are samples in `front` take `front` off the delay line, and append behind the rest. -/
theorem feed_ticks_dl {front rest : List F32} {s t : State} (hd : s.dl = front ++ rest)
    (h : feed (List.replicate front.length (present .tick)) s = .next t) :
    t.derived = s.derived ∧ ∃ entered, t.dl = rest ++ entered := by
  induction front generalizing s rest with
  | nil => cases h; exact ⟨rfl, [], by rw [hd, List.nil_append, List.append_nil]⟩
  | cons y front ih =>
    obtain ⟨u, hu, hfeed⟩ := feed_cons_ok h
    obtain ⟨old, tail, hold, hudl, hder⟩ := execTick_dl ((accept_present_tick s).symm.trans hu)
    obtain ⟨-, rfl⟩ := List.cons.inj (hold.symm.trans hd)
    obtain ⟨hder', entered, htdl⟩ := ih (hudl.trans (List.append_assoc _ _ _)) hfeed
    exact ⟨hder'.trans hder, _, htdl.trans (List.append_assoc _ _ _)⟩

/-- Settles O27: the sample that tick 1 enters is behind `N - 1` others, so it is the oldest one after `N` ticks, and
tick `N + 1` mixes it in. -/
theorem combFilterRecurrence : Obligations.CombFilterRecurrence := by
  intro s s1 t u v w h1 hv hN hu hw
  have htick1 := exec_tick_of_feed h1
  obtain ⟨old, rest, hd, hd1, hder1⟩ := execTick_dl htick1
  have hafter1 : feed (List.replicate rest.length (present .tick)) s1 = .next t := by
    rwa [hd, List.length_cons, List.replicate_succ,
      feed_cons_of_next ((accept_present_tick s).trans htick1)] at hN
  obtain ⟨hder, entered, htdl⟩ := feed_ticks_dl hd1 hafter1
  obtain ⟨oldest, tail, hdt, hdu, -⟩ := execTick_dl (exec_tick_of_feed hu)
  rw [hd1, List.getLast?_concat, Option.some.injEq] at hv
  rw [hdu, List.getLast?_concat, Option.some.injEq] at hw
  obtain ⟨holdest, -⟩ := List.cons.inj (hdt.symm.trans htdl)
  rw [← hw, hder, hder1, holdest, hv, combMix]

end Sys2Proof.Proofs

/-! PROOF. The Oscillator/FM Unit (45_oscillator_fm.md): `WRAP` takes `[0, 4π)` into `[0, 2π)` (R195), one call advances
both phases (R196), and the counter gate at the ends of the duty range (R200, R201). -/

namespace Sys2Proof.Proofs

open Sys2Proof.Machine Sys2Proof.Safety Sys2Proof.Laws

/-! ## `WRAP` -/

/-- The bound `4π` of R195 is twice `TWO_PI`, exactly. -/
theorem scaled_fourPi : scaled 0x41490FDB#32 = 2 * scaled twoPi := by decide

/-- Settles O41: an operand in `[0, 4π)` is finite, so `wrap_phaseInRange` holds of it. -/
theorem wrapBringsBelowTwoPi : Obligations.WrapBringsBelowTwoPi := by
  refine fun nan p => ⟨rfl, fun hlo hhi => ?_⟩
  obtain ⟨-, -, h0⟩ := (fle_iff fZero p).1 hlo
  obtain ⟨-, -, h4⟩ := (flt_iff p 0x41490FDB#32).1 hhi
  exact wrap_phaseInRange (finite_of_range (by decide) h0 h4.le) h0 (scaled_fourPi ▸ h4)

/-! ## `OSC_STEP` -/

/-- `OSC_STEP` stores the two advanced phases, the carrier's by the frequency that the new FM phase modulates, and hands
over the sine of the new carrier phase. -/
theorem exec_oscStep (s : State) :
    let fmPh := fmAdvance s.draws s.fmPh s.derived.fmRate
    let oscPh := carrierAdvance s.draws s.oscPh (instantFreq s.draws (fsin fmPh) s.derived.fmDepth s.derived.cf)
    exec .oscStep s = .next { s with
      fmPh := fmPh, oscPh := oscPh, draws := s.draws + 1, unitOut := .sample (fsin oscPh) } := rfl

/-- Settles O42: the statement writes out `fmAdvance`, `instantFreq` and `carrierAdvance`. -/
theorem oscStepAdvancesBothPhases : Obligations.OscStepAdvancesBothPhases := exec_oscStep

/-! ## The counter gate at the ends of the duty range -/

theorem isNaN_i2f (n : Nat) : isNaN (i2f n) = false := isNaN_pack (roundMag_le _ _)

/-- `i2f` is never below zero, an integer too large for binary32 included. -/
theorem scaled_i2f_nonneg (n : Nat) : 0 ≤ scaled (i2f n) := by
  rw [i2f, scaled_pack_nonneg (roundMag_lt_31 _ _) (by simp)]
  exact Int.natCast_nonneg _

/-- A product with `+0.0` is a zero, or the NaN where the other factor is not finite. -/
theorem fmul_zero_left {nan y : F32} (hnan : isNaN nan = true) :
    isNaN (fmul nan fZero y) = true ∨ isZero (fmul nan fZero y) = true := by
  cases hn : isNaN y with
  | true => exact Or.inl (by rwa [fmul_nan nan (Or.inr hn)])
  | false =>
    cases hi : isInf y with
    | true => exact Or.inl (by rwa [fmul_inf nan (by decide) hn (Or.inr hi)])
    | false =>
      have hm : mag fZero = 0 := by decide
      refine Or.inr ?_
      rw [fmul_finite nan (by decide) (finite_of_not_nan_not_inf hn hi), hm, Nat.zero_mul, isZero_iff,
        low31_pack (roundMag_lt_31 _ _)]
      decide

/-- A product with `1.0` is the other factor, bit for bit. -/
theorem fmul_one_left {nan y : F32} (hy : isFinite y = true) : fmul nan fOne y = y := by
  have hm : mag fOne = 2 ^ 149 := by decide
  have hs : sgn fOne = false := by decide
  have hr : roundMag (mag fOne * mag y) (2 ^ 149) = low31 y :=
    roundMag_exact (by positivity) ((isFinite_iff y).1 hy).le (by rw [hm, mag_eq, Nat.mul_comm])
  rw [fmul_finite nan (by decide) hy, hr, hs, Bool.false_bne, pack_self]

/-- `i2f` is finite up to `2^24`. -/
theorem isFinite_i2f {n : Nat} (hn : n ≤ 2 ^ 24) : isFinite (i2f n) = true := by
  obtain ⟨m, hm⟩ := exists_magBits_eq 149 hn
  exact (mag_pack_exact false hm (by rw [magBits_infBits]; omega)).1

/-- With a duty cycle of 0 the threshold is a zero or a NaN, and no index is below either. -/
theorem counterGate_duty_zero (n psamp : Nat) (cnt : BitVec 32) : counterGate n cnt psamp fZero = false := by
  rw [← Bool.not_eq_true, counterGate, flt_iff]
  rintro ⟨-, hnn, hlt⟩
  have h0 := scaled_i2f_nonneg (cnt.toNat % psamp)
  rcases fmul_zero_left (y := i2f psamp) (isNaN_nanAt n .cntThr) with hnan | hz
  · rw [hnn] at hnan; cases hnan
  · rw [scaled_zero hz] at hlt; omega

/-- With a duty cycle of 1 the threshold is `i2f(PSAMP)`, and up to `2^24` the index, which is below `PSAMP`, converts to
a value below it. -/
theorem counterGate_duty_one {n psamp : Nat} {cnt : BitVec 32} (hpos : 1 ≤ psamp) (hle : psamp ≤ 2 ^ 24) :
    counterGate n cnt psamp fOne = true := by
  have hidx : cnt.toNat % psamp < psamp := Nat.mod_lt _ hpos
  rw [counterGate, fmul_one_left (isFinite_i2f hle), flt_iff, scaled_i2f (hidx.le.trans hle), scaled_i2f hle]
  exact ⟨isNaN_i2f _, isNaN_i2f _, by omega⟩

/-- Settles O44: the two ends of the duty range; at `DUTY = 0` the gate is closed whatever the period is. -/
theorem counterGateExtremes : Obligations.CounterGateExtremes :=
  ⟨fun n psamp cnt _ => counterGate_duty_zero n psamp cnt, fun _ _ _ hpos hle => counterGate_duty_one hpos hle⟩

end Sys2Proof.Proofs

/-! PROOF. The Envelope Gate (46_envelope_gate.md): one call advances the phase and compares it (R211), and a NaN phase
stays a NaN, and the gate closed, through every run of port words (R216). -/

namespace Sys2Proof.Proofs

open Sys2Proof.Machine Sys2Proof.Safety Sys2Proof.Laws

/-! ## `ENV_STEP` -/

/-- `ENV_STEP` stores the advanced phase and hands over the gate on that new phase. -/
theorem exec_envStep (s : State) :
    let envPh := envAdvance s.draws s.envPh s.derived.period
    exec .envStep s = .next { s with
      envPh := envPh, draws := s.draws + 1, unitOut := .gate (envGate s.draws envPh s.derived.duty) } := rfl

/-- Settles O46: the statement writes out `envAdvance` and `envGate`. -/
theorem envStepAdvancesThenCompares : Obligations.EnvStepAdvancesThenCompares := exec_envStep

/-! ## A NaN phase -/

/-- No NaN compares at least `TWO_PI`, so `WRAP` leaves it. -/
theorem wrap_nan {p : F32} (nan : F32) (hp : isNaN p = true) : wrap nan p = p := by
  refine if_neg fun hge => ?_
  obtain ⟨hnn, -, -⟩ := (fge_iff p twoPi).1 hge
  rw [hp] at hnn; cases hnn

/-- A NaN phase advances to the NaN drawn for the addition, whatever the period is. -/
theorem isNaN_envAdvance {envPh : F32} (n : Nat) (period : F32) (h : isNaN envPh = true) :
    isNaN (envAdvance n envPh period) = true := by
  rw [envAdvance, fadd_nan _ (Or.inl h), wrap_nan _ (isNaN_nanAt n .envAdd)]
  exact isNaN_nanAt n .envAdd

/-- No NaN phase is at most the threshold. -/
theorem envGate_nan {phase : F32} (n : Nat) (duty : F32) (h : isNaN phase = true) : envGate n phase duty = false := by
  rw [← Bool.not_eq_true, envGate, fle_iff]
  rintro ⟨hnn, -, -⟩
  rw [h] at hnn; cases hnn

/-- `ENV_STEP` on a NaN phase leaves a NaN and hands over a closed gate. -/
theorem exec_envStep_nan {s t : State} (hs : isNaN s.envPh = true) (h : exec .envStep s = .next t) :
    isNaN t.envPh = true ∧ t.unitOut = .gate false := by
  have hnew := isNaN_envAdvance s.draws s.derived.period hs
  rw [exec_envStep] at h
  cases h
  exact ⟨hnew, congrArg UnitOut.gate (envGate_nan _ _ hnew)⟩

/-! ## The envelope phase along a run -/

/-- A `TICK` advances the envelope phase once, under its second draw. -/
theorem execTick_envPh {s t : State} (h : exec .tick s = .next t) :
    t.envPh = envAdvance (s.draws + 1) s.envPh s.derived.period := by
  obtain ⟨old, out, cg, s1, s2, s5, s6, rfl, -, hdl, hcg, hmix, rfl⟩ := execTick_units h
  obtain ⟨rest, -, rfl⟩ := dlTick_ok hdl
  obtain ⟨-, -, rfl⟩ := cntGate_ok hcg
  obtain ⟨mode, -, rfl, -⟩ := mixOut_ok hmix
  rfl

/-- A `FRAME` leaves it. -/
theorem execFrame_envPh {s t : State} (h : exec .frame s = .next t) : t.envPh = s.envPh := by
  rcases execFrame_cases h with ⟨-, rfl⟩ | ⟨p, -, -, rfl⟩
  · rfl
  · rw [resizeIfChanged_eq]; rfl

/-- Every word of a port keeps a NaN envelope phase a NaN: only `TICK` writes the phase. -/
theorem port_keeps_nan_envPh {x : Input} {s t : State} (hx : isPort x = true) (hs : isNaN s.envPh = true)
    (h : accept x s = .next t) : isNaN t.envPh = true := by
  rcases port_accept_cases hx h with rfl | ⟨e, rfl⟩ | ⟨p, -, he⟩ | ⟨-, he⟩ | ⟨-, he⟩
  · exact hs
  · exact hs
  · rw [execPush_frame he]; exact hs
  · rw [execFrame_envPh he]; exact hs
  · rw [execTick_envPh he]; exact isNaN_envAdvance _ _ hs

/-- And so does every run of such words. -/
theorem feed_keeps_nan_envPh {xs : List Input} {s t : State} (hports : ∀ x ∈ xs, isPort x = true)
    (hs : isNaN s.envPh = true) (h : feed xs s = .next t) : isNaN t.envPh = true := by
  induction xs generalizing s with
  | nil => cases h; exact hs
  | cons x xs ih =>
    obtain ⟨u, hu, hrest⟩ := feed_cons_ok h
    obtain ⟨hx, hxs⟩ := List.forall_mem_cons.1 hports
    exact ih hxs (port_keeps_nan_envPh hx hs hu) hrest

/-- Settles O48: `ENV_STEP` closes the gate on a NaN phase, and no port word takes the NaN away. -/
theorem nanPhaseClosesTheGateForEver : Obligations.NanPhaseClosesTheGateForEver := by
  refine ⟨fun _ _ hs h => exec_envStep_nan hs h, fun _ _ t hports hs h => ?_⟩
  have ht : isNaN t.envPh = true := feed_keeps_nan_envPh hports hs h
  exact ⟨ht, fun _ hu => (exec_envStep_nan ht hu).2⟩

end Sys2Proof.Proofs

/-! PROOF. The reset procedure (70_reset_and_hazards.md R280): which configurations are refused (60_exceptions.md R258), and
the state that any other reset leaves. -/

namespace Sys2Proof.Proofs

open Sys2Proof.Machine Sys2Proof.Laws

/-- A legal configuration has a mode that is not reserved and zero reserved bits. -/
theorem legalCfg_iff (cfg : BitVec 8) :
    legalCfg cfg = true ↔ cfg.extractLsb' 0 2 ≠ 0b11#2 ∧ cfg.extractLsb' 5 3 = 0b000#3 := by
  have hmode : (cfgMode cfg).isSome = true ↔ cfg.extractLsb' 0 2 ≠ 0b11#2 := by
    unfold cfgMode
    generalize cfg.extractLsb' 0 2 = m
    revert m; decide
  rw [legalCfg, Bool.and_eq_true, hmode, decide_eq_true_iff]

/-- A reset with a reserved `CFG_IN` is refused (60_exceptions.md R258). -/
theorem resetOp_reserved {cfgIn : BitVec 8} (h : legalCfg cfgIn = false) (init : BitVec 192) (seedIn : BitVec 32)
    (s : State) : resetOp cfgIn init seedIn s = .refused .badConfig := by
  rcases resetOp_cases cfgIn init seedIn s with ⟨-, hr⟩ | ⟨hc, -⟩
  · exact hr
  · rw [h] at hc; cases hc

/-- The state a reset leaves that is not refused; the derived length is in range, so that the delay line has it. -/
theorem resetOp_legal {cfgIn : BitVec 8} (h : legalCfg cfgIn = true) (init : BitVec 192) (seedIn : BitVec 32)
    (s : State) : resetOp cfgIn init seedIn s = .next { s with
      cfg := cfgIn, pq := [], wr := 0, rd := 0, act := Snapshot.ofWord init
      derived := mapRegs s.draws (Snapshot.ofWord init) cfgIn
      seed := seedOf seedIn, envPh := fZero, oscPh := fZero, fmPh := fZero, cnt := 0#32
      dl := zeros (mapRegs s.draws (Snapshot.ofWord init) cfgIn).dlLen
      err := 0b00#2, cOut := fZero, pOk := false, draws := s.draws + 1, unitOut := .nothing } := by
  rcases resetOp_cases cfgIn init seedIn s with ⟨hc, -⟩ | ⟨-, t, hr, ht⟩
  · rw [h] at hc; cases hc
  · have hb := delayLength_bounds (rawDelay s.draws (remap s.draws .e (Snapshot.ofWord init)) cfgIn)
    have hlen : clampLength (mapRegs s.draws (Snapshot.ofWord init) cfgIn).dlLen =
      (mapRegs s.draws (Snapshot.ofWord init) cfgIn).dlLen := clampLength_eq hb.1 hb.2
    rw [hr, ht, hlen]

/-- Settles O6: `legalCfg` decides between the refusal and the state of `resetOp_legal`. -/
theorem resetProcedure : Obligations.ResetProcedure := by
  intro s cfgIn init seedIn rest hin
  rw [step_of_inputs hin]
  refine ⟨fun hbad => resetOp_reserved ?_ init seedIn _, fun hmode hbits =>
    ⟨_, resetOp_legal ((legalCfg_iff cfgIn).2 ⟨hmode, hbits⟩) init seedIn _, rfl, rfl, rfl, rfl, rfl, rfl, rfl, rfl, rfl,
      rfl, rfl, rfl, rfl, rfl, rfl⟩⟩
  rw [← Bool.not_eq_true, legalCfg_iff]
  exact fun ⟨hmode, hbits⟩ => hbad.elim hmode (fun h => h hbits)

theorem ofWord_zero : Snapshot.ofWord 0#192 = Snapshot.zero := by decide

/-- Settles O7: `State.reset` has, field by field, what the reset leaves under draw number 0. -/
theorem resetStateIsTheZeroReset : Obligations.ResetStateIsTheZeroReset := by
  intro s hdraws hinputs
  have hr := resetOp_legal (cfgIn := 0x00#8) (by decide) 0#192 0x00000000#32 s
  rw [ofWord_zero, hdraws, hinputs] at hr
  exact hr

end Sys2Proof.Proofs

/-! PROOF. The output stage and the Synthesis Engine's `TICK` in full (47_synthesis_engine.md R228, R232, R233), `NOP` (R222),
and that `CFG.MODE` selects nothing but the output (R231, R237). -/

namespace Sys2Proof.Proofs

open Sys2Proof.Machine Sys2Proof.Safety Sys2Proof.Laws

/-! ## NOP -/

/-- `NOP` of port P drops its payload. -/
theorem exec_nopP (payload : BitVec 192) (s : State) : exec (.nopP payload) s = .next s := rfl

theorem exec_nopC (s : State) : exec .nopC s = .next s := rfl

/-- Settles O20: `NOP` on each port. -/
theorem nopChangesNothing : Obligations.NopChangesNothing :=
  fun s payload => ⟨exec_nopP payload s, exec_nopC s⟩

/-! ## TICK -/

/-- Settles O22: the chain of unit operations in `execTick_eq`, with each of its named states put in. -/
theorem tickProducesOneSample : Obligations.TickProducesOneSample := by
  intro s old rest mode hd hp hm
  exact execTick_eq hd hp hm _ rfl _ _ _ _ _ _ _ rfl rfl rfl rfl rfl rfl rfl

/-! ## MIX_OUT -/

/-- `MIX_OUT` in a mode that is not reserved. -/
theorem exec_mixOut {s : State} {mode : Mode} (hm : cfgMode s.cfg = some mode) (mixed osc : F32) (eg cg : Bool) :
    exec (.mixOut mixed eg osc cg) s = .next { s with
      draws := s.draws + 1
      unitOut := .sample (fmul (Config.nanAt s.draws .gainMul)
        (premix s.draws mode (gated eg mixed) (gated cg osc)) s.derived.og) } := by
  change execMixOut mixed eg osc cg s = _
  simp only [execMixOut, mixOut, hm]
  rfl

theorem cfgMode_noise {cfg : BitVec 8} (h : cfg.extractLsb' 0 2 = 0b00#2) : cfgMode cfg = some .noise := by
  unfold cfgMode; rw [h]; rfl

theorem cfgMode_osc {cfg : BitVec 8} (h : cfg.extractLsb' 0 2 = 0b01#2) : cfgMode cfg = some .osc := by
  unfold cfgMode; rw [h]; rfl

theorem cfgMode_mix {cfg : BitVec 8} (h : cfg.extractLsb' 0 2 = 0b10#2) : cfgMode cfg = some .mix := by
  unfold cfgMode; rw [h]; rfl

/-- Settles O24: the three codes of `CFG.MODE`. -/
theorem mixOutSelectsSumsAndScales : Obligations.MixOutSelectsSumsAndScales :=
  fun mixed osc eg cg _ => ⟨fun h => exec_mixOut (cfgMode_noise h) mixed osc eg cg,
    fun h => exec_mixOut (cfgMode_osc h) mixed osc eg cg, fun h => exec_mixOut (cfgMode_mix h) mixed osc eg cg⟩

/-! ## The closed gate -/

/-- A finite factor of `+0.0` leaves a zero. -/
theorem isZero_fmul_zero_left (n : Nat) (site : Config.Site) {y : F32} (hy : isFinite y = true) :
    isZero (fmul (Config.nanAt n site) fZero y) = true := by
  refine (fmul_zero_left (isNaN_nanAt n site)).resolve_left ?_
  rw [fmul_finite _ (by decide) hy, isNaN_pack (roundMag_le _ _)]
  exact Bool.false_ne_true

/-- Settles O25: the closed gate selects `+0.0` in place of the mixed value, and the gain scales that. -/
theorem closedGateIsSilent : Obligations.ClosedGateIsSilent := by
  intro s t hmode hog hgate h
  obtain ⟨old, rest, hd, hp, -, -⟩ := execTick_frame h
  rw [tickProducesOneSample s old rest .noise hd hp hmode] at h
  cases h
  simp only [hgate]
  exact isZero_fmul_zero_left _ _ hog

/-! ## `CFG.MODE` -/

/-- The mapping selects are bits 2 to 4 of `CFG`, above `MODE`. -/
theorem mapRegs_mode {c d : BitVec 8} (h : d.extractLsb' 2 6 = c.extractLsb' 2 6) (n : Nat) (p : Snapshot) :
    mapRegs n p d = mapRegs n p c := by
  have hbit (i : Nat) (hi : i < 6) : d.getLsbD (2 + i) = c.getLsbD (2 + i) := by
    simpa [hi] using congrArg (BitVec.getLsbD · i) h
  have hrate : cfgFmRateLin d = cfgFmRateLin c := hbit 0 (by decide)
  have hdepth : cfgFmDepthExp d = cfgFmDepthExp c := hbit 1 (by decide)
  have hdelay : cfgDelayLin d = cfgDelayLin c := hbit 2 (by decide)
  simp only [mapRegs, fmRateOf, fmDepthOf, rawDelay, hrate, hdepth, hdelay]

/-- The block `s` under another configuration word, with another last sample. -/
def reconfigured (c : BitVec 8) (out : F32) (s : State) : State := { s with cfg := c, cOut := out }

/-- `PUSH` reads neither. -/
theorem execPush_reconfigured {p : Snapshot} {s s' : State} (c : BitVec 8) (out : F32)
    (h : exec (.push p) s = .next s') : exec (.push p) (reconfigured c out s) = .next (reconfigured c out s') := by
  rw [pushEnqueuesOrDrops] at h ⊢
  by_cases hfull : ((s.wr : Int) - s.rd) % 400 = 200
  · rw [if_pos hfull] at h
    cases h
    exact if_pos hfull
  · rw [if_neg hfull] at h
    cases h
    exact if_neg hfull

/-- `FRAME` reads of `CFG` the mapping selects only. -/
theorem execFrame_reconfigured {s s' : State} {c : BitVec 8} (hc : c.extractLsb' 2 6 = s.cfg.extractLsb' 2 6) (out : F32)
    (h : exec .frame s = .next s') : exec .frame (reconfigured c out s) = .next (reconfigured c out s') := by
  obtain ⟨hidle, hdrain⟩ := frameAppliesAndResizes
  rcases execFrame_cases h with ⟨hq, rfl⟩ | ⟨p, hq, hp, -⟩
  · exact hidle _ hq
  · rw [hdrain s p hq hp] at h
    cases h
    rw [← mapRegs_mode hc]
    exact hdrain (reconfigured c out s) p hq hp

/-- `TICK` reads of `CFG` the mode, for the sample in `C_OUT` alone. -/
theorem execTick_reconfigured {s s' : State} {c : BitVec 8} (hc : (cfgMode c).isSome = true) (out : F32)
    (h : exec .tick s = .next s') :
    ∃ out', exec .tick (reconfigured c out s) = .next (reconfigured c out' s') := by
  obtain ⟨old, rest, hd, hp, hm, -⟩ := execTick_frame h
  obtain ⟨mode, hm⟩ := Option.isSome_iff_exists.1 hm
  obtain ⟨mode', hc⟩ := Option.isSome_iff_exists.1 hc
  rw [tickProducesOneSample s old rest mode hd hp hm] at h
  cases h
  exact ⟨_, tickProducesOneSample (reconfigured c out s) old rest mode' hd hp hc⟩

/-- A word of a port does the same to a block under another mode, up to the sample in `C_OUT`. -/
theorem port_reconfigured {x : Input} {s s' : State} {c : BitVec 8} (hx : isPort x = true)
    (hc : c.extractLsb' 2 6 = s.cfg.extractLsb' 2 6) (hmode : (cfgMode c).isSome = true) (out : F32)
    (h : accept x s = .next s') :
    ∃ out', accept x (reconfigured c out s) = .next (reconfigured c out' s') := by
  rcases port_word hx with hw | ⟨e, hw⟩ | ⟨p, hw⟩ | hw | hw <;> rw [hw] at h ⊢
  · cases h; exact ⟨out, rfl⟩
  · cases h; exact ⟨out, rfl⟩
  · exact ⟨out, execPush_reconfigured c out h⟩
  · exact ⟨out, execFrame_reconfigured hc out h⟩
  · exact execTick_reconfigured hmode out h

/-- Settles O26: the step is the port word on the state past it, where `port_reconfigured` holds. -/
theorem modeSelectsOnlyTheOutput : Obligations.ModeSelectsOnlyTheOutput := by
  intro s t s' x rest _ hit hx hin hbits ht h
  have htin : t.inputs = x :: rest := (congrArg State.inputs ht).trans hin
  have hrest : t.withInputs rest = reconfigured t.cfg t.cOut (s.withInputs rest) :=
    congrArg (State.withInputs · rest) ht
  rw [step_of_inputs hin] at h
  obtain ⟨out', hstep⟩ := port_reconfigured (s := s.withInputs rest) hx hbits (cfgMode_isSome_of_inv hit) t.cOut h
  exact ⟨_, (step_of_inputs htin).trans (hrest ▸ hstep), rfl⟩

end Sys2Proof.Proofs
